-- ==== Sys2Proof/Word.lean ====
section
/-! DEFINITION. The units the block handles: the byte (R9), the 16-bit command word (R82) and the
name of a request port (R80). -/

namespace Sys2Proof

/-- A byte is 8 bits, an unsigned value in `[0, 255]` (R9). -/
abbrev Byte := BitVec 8

/-- A command word: the one instruction length is 16 bits (R82). -/
abbrev Word := BitVec 16

/-- The two request ports (R80): `A` belongs to the asynchronous context (producer), `S` to the
synchronous context (consumer). -/
inductive Port where
  | A
  | S
deriving DecidableEq, Repr

end Sys2Proof
end

