-- ==== Sys2Proof/Config.lean ====
section
/-! DEFINITION. What is fixed for the life of an instance of the block (the parameters `N`, `C`, `TW` of R6
and the byte constants of R7) and the free values of the answers (R11, R86). -/

namespace Sys2Proof

/-- The parameters of R6. No value is fixed by the spec (U10); every statement about the block is made
for all of them. -/
structure Params where
  /-- `N`, the number of record slots in the queue. -/
  n : Nat
  /-- `C`, the capacity of one record in bytes. -/
  c : Nat
  /-- `TW`, the width of the tick counter in bits. -/
  tw : Nat
deriving DecidableEq, Repr

/-- The constraints of R6: `1 <= N <= 4096`, `1 <= C <= 4095`, `TW >= 1`. -/
abbrev Params.Valid (p : Params) : Prop :=
  1 ≤ p.n ∧ p.n ≤ 4096 ∧ 1 ≤ p.c ∧ p.c ≤ 4095 ∧ 1 ≤ p.tw

/-- `ceil(log2 m)`, the number of bits that tell `m` values apart. -/
def clog2 (m : Nat) : Nat := if m ≤ 1 then 0 else Nat.log2 (m - 1) + 1

/-- `IW`, the width of `head` and `tail` (R6). -/
def Params.iw (p : Params) : Nat := max 1 (clog2 p.n)

/-- `CW`, the width of `count` (R6). -/
def Params.cw (p : Params) : Nat := clog2 (p.n + 1)

/-- `UW`, the width of `cursor` and of a legal length (R6). -/
def Params.uw (p : Params) : Nat := clog2 (p.c + 1)

/-- `VW`, the width of the numeric answer `s_val` (R81). -/
def Params.vw (p : Params) : Nat := max p.tw p.cw

namespace Config

/-- The test configuration `T = (N = 4, C = 8, TW = 8)` of R8. It is not the firmware's. -/
def testConfig : Params := { n := 4, c := 8, tw := 8 }

/-- `SENT`, the sentinel (R7). -/
def sent : Byte := 0x00

/-- `LF`, the end-of-record byte (R7). PRESUMED code, by the spec from ASCII (G1); log 11. -/
def lf : Byte := 0x0A

/-- `CR`, the ignored byte (R7). PRESUMED code, by the spec from ASCII (G1); log 11. -/
def cr : Byte := 0x0D

/-- The free value of the `k`-th S-port answer's `val` where its operation sets none (R11, R86); log 8. -/
opaque freeVal : Nat → Nat

/-- The free value of the `k`-th S-port answer's `data` at an offset its operation does not set
(R11, R86); log 8. -/
opaque freeByte : Nat → Nat → Byte

end Config

end Sys2Proof
end

