-- ==== Sys2Proof/Syntax.lean ====
section
/-! DEFINITION. The ten operations of the block (R3, R83), one constructor per row of the opcode table. -/

namespace Sys2Proof

/-- An operation with its operands (R84). Lengths and slot indices are integers, compared as integers. -/
inductive Instr where
  /-- `TICK` (R110): one firing of the periodic timer. -/
  | tick
  /-- `RXB b` (R140): deliver one received byte to the framer. -/
  | rxb (b : Byte)
  /-- `PUSH len` (R120): append the first `len` bytes of the payload on `a_wdata` as one record. -/
  | push (len : Nat)
  /-- `POP len` (R122): remove the oldest record and answer its first `len` bytes. -/
  | pop (len : Nat)
  /-- `COUNT` (R123): answer the occupancy. -/
  | count
  /-- `FULL` (R124): answer whether the queue is full. -/
  | full
  /-- `EMPTY` (R125): answer whether the queue is empty. -/
  | empty
  /-- `RSTALL` (R126): empty the queue and clear its storage. -/
  | rstall
  /-- `RSTITEM i` (R127): clear the bytes of slot `i`. -/
  | rstitem (i : Nat)
  /-- `RDTICK` (R111): read the counter. -/
  | rdtick
deriving DecidableEq, Repr

end Sys2Proof
end

