-- ==== Sys2Proof/WellFormed.lean ====
section
/-! DEFINITION. Which operations can be written in a command word: a length or a slot index is a 12-bit
unsigned field, an integer in `[0, 4095]` (R82, R84). -/

namespace Sys2Proof

/-- The operand fits its field (R84). -/
def Instr.wellFormed : Instr → Bool
  | .tick => true
  | .rxb _ => true
  | .push len => decide (len < 4096)
  | .pop len => decide (len < 4096)
  | .count => true
  | .full => true
  | .empty => true
  | .rstall => true
  | .rstitem i => decide (i < 4096)
  | .rdtick => true

end Sys2Proof
end

