-- ==== Sys2Proof/Decode.lean ====
section
/-! DEFINITION. The command word: its two fields (R82), the opcode map (R83), the decoding procedure (R88) with
the reasons a word is illegal (R87), and after it the encoder. -/

namespace Sys2Proof

/-- The operation a row of the opcode map names (R83). -/
inductive Op where
  | tick
  | rxb
  | push
  | pop
  | count
  | full
  | empty
  | rstall
  | rstitem
  | rdtick
deriving DecidableEq, Repr

/-- One row of the opcode map of R83. -/
structure Row where
  op : Op
  port : Port
  pattern : Word
  mask : Word
deriving DecidableEq, Repr

/-- Why a command word is illegal (R87). -/
inductive Illegal where
  /-- R87 (a): the operation code is reserved. -/
  | reservedCode
  /-- R87 (b): the operation code is legal but a must-be-zero bit of `arg` is 1. -/
  | nonzeroArg
  /-- R87 (c): the operation belongs to the other port. -/
  | wrongPort
deriving DecidableEq, Repr

/-- The field `op = w[15:12]` (R82). -/
def opField (w : Word) : BitVec 4 := w.extractLsb' 12 4

/-- The field `arg = w[11:0]` (R82). -/
def argField (w : Word) : BitVec 12 := w.extractLsb' 0 12

/-- The byte operand `arg[7:0]` of `RXB` (R84). -/
def byteField (w : Word) : Byte := w.extractLsb' 0 8

/-- The word with the fields `op` and `arg` (R82). -/
def makeWord (op : BitVec 4) (arg : BitVec 12) : Word := op ++ arg

/-- The opcode map of R83, row for row. -/
def opcodeMap : List Row := [
  ⟨.tick, .A, 0x1000, 0xFFFF⟩,
  ⟨.rxb, .A, 0x2000, 0xFF00⟩,
  ⟨.push, .A, 0x3000, 0xF000⟩,
  ⟨.pop, .S, 0x8000, 0xF000⟩,
  ⟨.count, .S, 0x9000, 0xFFFF⟩,
  ⟨.full, .S, 0xA000, 0xFFFF⟩,
  ⟨.empty, .S, 0xB000, 0xFFFF⟩,
  ⟨.rstall, .S, 0xC000, 0xFFFF⟩,
  ⟨.rstitem, .S, 0xD000, 0xF000⟩,
  ⟨.rdtick, .S, 0xE000, 0xFFFF⟩]

/-- A word selects a row when `(w & mask) == match` (R83). -/
def Row.selects (r : Row) (w : Word) : Bool := (w &&& r.mask) == r.pattern

/-- The reserved operation codes of R87 (a). -/
def reservedOp (op : BitVec 4) : Bool :=
  op == 0x0 || op == 0x4 || op == 0x5 || op == 0x6 || op == 0x7 || op == 0xF

/-- Operand assembly (R84): every operand is an unsigned field of the word, used as it stands. -/
def Op.assemble (op : Op) (w : Word) : Instr :=
  match op with
  | .tick => .tick
  | .rxb => .rxb (byteField w)
  | .push => .push (argField w).toNat
  | .pop => .pop (argField w).toNat
  | .count => .count
  | .full => .full
  | .empty => .empty
  | .rstall => .rstall
  | .rstitem => .rstitem (argField w).toNat
  | .rdtick => .rdtick

/-- The decoding procedure of R88 for a word on a port. Which of two reasons is named where two hold is
the model's choice (DESIGN CHOICE, log 14). -/
def decode (p : Port) (w : Word) : Except Illegal Instr :=
  match opcodeMap.find? (fun r => r.selects w) with
  | some r => if r.port = p then .ok (r.op.assemble w) else .error .wrongPort
  | none => if reservedOp (opField w) then .error .reservedCode else .error .nonzeroArg

/-- The port an operation belongs to (R80). -/
def Instr.port : Instr → Port
  | .tick => .A
  | .rxb _ => .A
  | .push _ => .A
  | .pop _ => .S
  | .count => .S
  | .full => .S
  | .empty => .S
  | .rstall => .S
  | .rstitem _ => .S
  | .rdtick => .S

/-- The command word of an operation (R82 to R84). -/
def Instr.encode : Instr → Word
  | .tick => makeWord 0x1 0
  | .rxb b => makeWord 0x2 (b.setWidth 12)
  | .push len => makeWord 0x3 (BitVec.ofNat 12 len)
  | .pop len => makeWord 0x8 (BitVec.ofNat 12 len)
  | .count => makeWord 0x9 0
  | .full => makeWord 0xA 0
  | .empty => makeWord 0xB 0
  | .rstall => makeWord 0xC 0
  | .rstitem i => makeWord 0xD (BitVec.ofNat 12 i)
  | .rdtick => makeWord 0xE 0

/-- The port on which a word can be legal: bit 15 is 1 exactly for S-port operations (R83). -/
def portOf (w : Word) : Port := if w.msb then .S else .A

/-- The operation the decoder reads from a row of the table whose bits are `w`, numbered from the least
significant bit of the one 16-bit word; the bits above `nbits` are 0. The word is decoded on the port
bit 15 names (DEDUCED from R83, log 15). -/
def decodeTableWord (nbits w : Nat) : Option Instr :=
  if nbits ≤ 16 then
    (decode (portOf (BitVec.ofNat 16 (w % 2 ^ nbits))) (BitVec.ofNat 16 (w % 2 ^ nbits))).toOption
  else none

end Sys2Proof
end

