-- ==== Sys2Proof/Machine/State.lean ====
section
/-! DEFINITION. The state: the seven elements of R20, and beside them what is not state of the block but what the
model must hold to run it (the parameters, the request signals, the answers, the requests to come). -/

namespace Sys2Proof.Machine

/-- A byte space (R50, R51) as a list of (address, byte) cells, addresses strictly rising, no cell
holding what an unlisted address reads as (`Memory.wf`, log 9). -/
abbrev Memory := List Host.Cell

/-- A request on the A-port: the command word and the payload on `a_wdata` (R81, R85). `wdata` is the
number whose bits `[8k+7:8k]` are the byte at offset `k` (R54, log 13). -/
structure ARequest where
  cmd : Word
  wdata : Nat
deriving DecidableEq, Repr

/-- What one of the two agents presents next (R12, R61, R62): the asynchronous context's operations
caused by one event, performed back to back, or one operation of the synchronous context (log 6). -/
inductive Input where
  | async (first : ARequest) (more : List ARequest)
  | sync (cmd : Word)
deriving DecidableEq, Repr

/-- An answer on the S-port: `s_ok`, `s_val`, `s_data` with offset 0 first (R81, R86). -/
structure SAnswer where
  ok : Bool
  val : Nat
  data : List Byte
deriving DecidableEq, Repr

/-- The state. `tick` to `cursor` are the block's seven elements (R20) and nothing else of the block;
`cfg` is configuration (R6, log 1); the rest are the ports and the environment (R35, R52). -/
structure State where
  /-- The parameters of this instance; no operation changes them (R6). -/
  cfg : Params
  /-- The tick counter, `TW` bits (R29). -/
  tick : Nat
  /-- Space Q: the byte `(i, j)` at `slotAddr i j` (R21, R50). -/
  slot : Memory
  /-- The index of the slot the next successful `POP` reads (R24). -/
  head : Nat
  /-- The index of the slot the next successful push writes (R25). -/
  tail : Nat
  /-- The occupancy (R26). -/
  count : Nat
  /-- Space F: the byte `j` at `j` (R21, R51). -/
  fbuf : Memory
  /-- The framer cursor (R28). -/
  cursor : Nat
  /-- The requests still to come, in the total order of R61 (log 6). -/
  inputs : List Input
  /-- The payload lanes of the A-port as last presented (R85). -/
  aWdata : Nat
  /-- The A-port's answers so far, newest first: `a_ok` alone (R81, R86, log 7). -/
  aOut : List Bool
  /-- The S-port's answers so far, newest first (R81, R86, log 7). -/
  sOut : List SAnswer
  /-- The number of free values drawn so far (R11, log 8). -/
  draws : Nat
deriving DecidableEq, Repr

/-- The reasons the machine can stop with a fault. -/
inductive Fault where
  /-- An access to a slot outside space Q, which does not exist (R10, R50). Raised by `PUSH`, `RXB` (on
  `LF`) and `POP` when `tail` or `head` is not below `N`, which no reachable state has (R24, R25,
  R27). Safe: the machine stops where the spec gives the access no meaning (log 10). -/
  | slotOutsideQ
deriving DecidableEq, Repr

/-- The reasons a step can be refused. -/
inductive Refusal where
  /-- The operation has no meaning in the model yet. Raised by no arm. Safe. -/
  | notModelled (mnemonic : String)
  /-- The word presented on the port is illegal (R87), so it has no move in the model (R68 (e)). Raised
  by `step` alone. Safe (log 4). -/
  | illegalWord (port : Port) (reason : Illegal)
deriving DecidableEq, Repr

/-- The reset state of an instance with parameters `p` (R36, R191); the ports idle and nothing presented
(DESIGN CHOICE, log 3). -/
def State.resetWith (p : Params) : State :=
  { cfg := p
    tick := 0
    slot := []
    head := 0
    tail := 0
    count := 0
    fbuf := []
    cursor := 0
    inputs := []
    aWdata := 0
    aOut := []
    sOut := []
    draws := 0 }

/-- The machine right after reset, in the test configuration of R8 (DESIGN CHOICE, log 2). -/
def State.reset : State := State.resetWith Config.testConfig

end Sys2Proof.Machine
end

