-- ==== Sys2Proof/Machine/Ops.lean ====
section
/-! DEFINITION. The named operations over the two byte spaces (the primitives of R10), over the block's
control fields, over the ports' answers (R11, R86) and over the requests to come (R61, R62).

There is no exception to take and none to return from: the block raises none, saves no state, changes
no mode and takes no vector (R160, R168). What stands in an exception's place is the answer `ok = 0`,
`State.failS` and `State.failA` below. -/

namespace Sys2Proof.Machine

/-! ### A byte space -/

/-- The byte at an address; an unlisted address reads as `SENT`, the reset contents (R36, log 9). -/
def Memory.read : Memory → Nat → Byte
  | [], _ => Config.sent
  | c :: m, a => if c.1 = a then c.2 else Memory.read m a

/-- Put a cell in before the first cell of a higher address. -/
def Memory.place : Memory → Host.Cell → Memory
  | [], c => [c]
  | d :: m, c => if c.1 < d.1 then c :: d :: m else d :: Memory.place m c

/-- Write one byte, keeping the canonical form: writing `SENT` unlists the address. -/
def Memory.write (m : Memory) (a : Nat) (b : Byte) : Memory :=
  if b = Config.sent then m.filter (fun c => c.1 ≠ a) else Memory.place (m.filter (fun c => c.1 ≠ a)) (a, b)

/-- Write bytes at ascending addresses, first to last (the order of `MemWrite`, R10). -/
def Memory.writeBytes (m : Memory) (a : Nat) : List Byte → Memory
  | [] => m
  | b :: bs => Memory.writeBytes (Memory.write m a b) (a + 1) bs

/-- Make `n` bytes from `a` on read as `SENT` (the effect of `MemFill`, R10). -/
def Memory.clear (m : Memory) (a n : Nat) : Memory := m.filter (fun c => ¬ (a ≤ c.1 ∧ c.1 < a + n))

/-- The `n` bytes from `a` on, ascending. -/
def Memory.readBytes (m : Memory) (a n : Nat) : List Byte := (List.range n).map (fun k => Memory.read m (a + k))

/-- The canonical form: addresses strictly rise and no cell holds what an unlisted address reads as. -/
abbrev Memory.wf (m : Memory) : Prop :=
  List.Pairwise (fun c d : Host.Cell => c.1 < d.1) m ∧ ∀ c ∈ m, c.2 ≠ Config.sent

/-! ### Space Q and space F -/

/-- The address of byte `j` of slot `i` in the list that holds space Q; `C <= 4095`, so slots do not meet
(DESIGN CHOICE, log 9). -/
def slotAddr (i j : Nat) : Nat := 4096 * i + j

/-- The byte `slot[i][j]`. -/
def State.slotByte (s : State) (i j : Nat) : Byte := Memory.read s.slot (slotAddr i j)

/-- The byte `fbuf[j]`. -/
def State.fbufByte (s : State) (j : Nat) : Byte := Memory.read s.fbuf j

/-- `MemRead(Q, i, n)` (R10). -/
def memReadQ (m : Memory) (i n : Nat) : List Byte := Memory.readBytes m (slotAddr i 0) n

/-- `MemWrite(Q, i, n, v)` (R10): the first `n` bytes of `v` to offsets `0` to `n-1` of slot `i`. -/
def memWriteQ (m : Memory) (i n : Nat) (v : List Byte) : Memory := Memory.writeBytes m (slotAddr i 0) (v.take n)

/-- `MemFill(Q, i)` (R10): every byte of slot `i` becomes `SENT`. -/
def memFillQ (p : Params) (m : Memory) (i : Nat) : Memory := Memory.clear m (slotAddr i 0) p.c

/-- `MemFill(Q, i)` for every slot `i` of `0..N-1`, as `RSTALL` does (R126). -/
def memFillAllQ (p : Params) (m : Memory) : Memory := (List.range p.n).foldl (memFillQ p) m

/-- `MemRead(F, n)` (R10). -/
def State.memReadF (s : State) (n : Nat) : List Byte := Memory.readBytes s.fbuf 0 n

/-! ### The control fields -/

/-- `(tick + 1) mod 2^TW` (R110). -/
def State.tickUp (s : State) : State := { s with tick := (s.tick + 1) % 2 ^ s.cfg.tw }

/-- The successor of a slot index, modulo `N` (R57). -/
def nextIndex (p : Params) (i : Nat) : Nat := (i + 1) % p.n

/-- The success path of a push (R120): the slot at `tail` is filled with `SENT`, then the first `len`
bytes of `rec` are copied in, `tail` advances, `count` increments. -/
def State.append (s : State) (rec : List Byte) (len : Nat) : State :=
  { s with
    slot := memWriteQ (memFillQ s.cfg s.slot s.tail) s.tail len rec
    tail := nextIndex s.cfg s.tail
    count := s.count + 1 }

/-- The success path of a pop (R122): `head` advances and `count` decrements; the slot keeps its bytes. -/
def State.dropOldest (s : State) : State := { s with head := nextIndex s.cfg s.head, count := s.count - 1 }

/-- The effect of `RSTALL` (R126). -/
def State.clearQueue (s : State) : State :=
  { s with slot := memFillAllQ s.cfg s.slot, head := 0, tail := 0, count := 0 }

/-- The effect of `RSTITEM i` in range (R127). -/
def State.clearSlot (s : State) (i : Nat) : State := { s with slot := memFillQ s.cfg s.slot i }

/-- The framer stores a byte at the cursor and advances it (R140 step 4). -/
def State.storeByte (s : State) (b : Byte) : State :=
  { s with fbuf := Memory.write s.fbuf s.cursor b, cursor := s.cursor + 1 }

/-- The framer returns to the start of its buffer (R140 steps 1 and 3). -/
def State.rewind (s : State) : State := { s with cursor := 0 }

/-! ### Answers -/

/-- Answer on the A-port: `ok` alone (R86). -/
def State.answerA (s : State) (ok : Bool) : State := { s with aOut := ok :: s.aOut }

/-- The free `val` of the next S-port answer, within `VW` bits (R11, R81, log 8). -/
def State.freeVal (s : State) : Nat := Config.freeVal s.draws % 2 ^ s.cfg.vw

/-- The free bytes of the next S-port answer at the offsets `k <= j < C` (R11, R86, log 8). -/
def State.freeLanes (s : State) (k : Nat) : List Byte :=
  (List.range (s.cfg.c - k)).map (fun j => Config.freeByte s.draws (k + j))

/-- Answer on the S-port: `val` where the operation sets it, `data` at the offsets the operation sets, and
free values for the rest (R11, R86). -/
def State.answerS (s : State) (ok : Bool) (val : Option Nat) (data : List Byte) : State :=
  { s with
    sOut := ⟨ok, val.getD s.freeVal, data ++ s.freeLanes data.length⟩ :: s.sOut
    draws := s.draws + 1 }

/-- The `val` of the last answer given on the S-port, as its reader sees it. -/
def State.lastVal (s : State) : Option Nat := s.sOut.head?.map SAnswer.val

/-- `fail` on the A-port (R11): `ok = 0`, no state element changed. -/
def State.failA (s : State) : State := s.answerA false

/-- `fail` on the S-port (R11): `ok = 0`, `val` and `data` unspecified, no state element changed. -/
def State.failS (s : State) : State := s.answerS false none []

/-! ### Outcomes -/

/-- Go on from a next state; a fault or a refusal stays. -/
def onNext (f : State → State) : Host.Outcome State Fault Refusal → Host.Outcome State Fault Refusal
  | .next s => .next (f s)
  | .fault r => .fault r
  | .refused r => .refused r

/-- Go on with something that may itself stop, answering anything. -/
def andThen {σ τ : Type} (o : Host.Outcome σ Fault Refusal) (f : σ → Host.Outcome τ Fault Refusal) :
    Host.Outcome τ Fault Refusal :=
  match o with
  | .next s => f s
  | .fault r => .fault r
  | .refused r => .refused r

/-- The body of a push past its tests (R120, R121): the slot written is `slot[tail]`, which must exist
(R10, log 10). -/
def queueAppend (rec : List Byte) (len : Nat) (s : State) : Host.Outcome State Fault Refusal :=
  if s.tail < s.cfg.n then .next (s.append rec len) else .fault .slotOutsideQ

/-- What the machine does with an illegal word: it has no move (R87, R68 (e), log 4). -/
def refuseWord (p : Port) (e : Illegal) (_s : State) : Host.Outcome State Fault Refusal :=
  .refused (.illegalWord p e)

/-! ### Requests -/

/-- Take the next request (R61, R62): its port, its word, and the state with the request taken and, on the
A-port, its payload on the lanes. The rest of an event stays in front. `none`: nothing is presented. -/
def State.nextRequest (s : State) : Option (Port × Word × State) :=
  match s.inputs with
  | [] => none
  | .async r [] :: rest => some (.A, r.cmd, { s with inputs := rest, aWdata := r.wdata })
  | .async r (r' :: more) :: rest =>
      some (.A, r.cmd, { s with inputs := .async r' more :: rest, aWdata := r.wdata })
  | .sync w :: rest => some (.S, w, { s with inputs := rest })

/-- The request that presents a word on the port bit 15 names; an A-port word comes with the payload the
lanes hold (log 6). -/
def State.requestOf (s : State) (w : Word) : Input :=
  match portOf w with
  | .A => .async ⟨w, s.aWdata⟩ []
  | .S => .sync w

end Sys2Proof.Machine
end

