-- ==== Sys2Proof/Machine/Flags.lean ====
section
/-! DEFINITION. The two derived predicates (R30), the guards of push, pop and the framer made of them, and the
framer's ordered choice (R141, R142). Nothing here is stored. -/

namespace Sys2Proof.Machine

/-- `full = (count == N)` (R30). -/
def State.full (s : State) : Bool := s.count == s.cfg.n

/-- `empty = (count == 0)` (R30). -/
def State.empty (s : State) : Bool := s.count == 0

/-- The failure guard of `PUSH`: `count == N or len > C` (R120). -/
def State.pushFails (s : State) (len : Nat) : Bool := s.full || decide (s.cfg.c < len)

/-- The failure guard of `POP`: `count == 0 or len > C` (R122). -/
def State.popFails (s : State) (len : Nat) : Bool := s.empty || decide (s.cfg.c < len)

/-- The five outcomes of an `RXB` (R141). They are names, not an output. -/
inductive RxOutcome where
  | overflow
  | ignore
  | pushed
  | dropped
  | store
deriving DecidableEq, Repr

/-- The four tests of R140 in their order; the first that holds decides, and the overflow test does not
look at the byte (R142). -/
def State.rxOutcome (s : State) (b : Byte) : RxOutcome :=
  if s.cfg.c ≤ s.cursor then .overflow
  else if b = Config.cr then .ignore
  else if b = Config.lf then (if s.count < s.cfg.n then .pushed else .dropped)
  else .store

/-- A truth value as the number the port carries (R86). -/
def bitVal (b : Bool) : Nat := if b then 1 else 0

end Sys2Proof.Machine
end

