-- ==== Sys2Proof/Machine/Framer.lean ====
section
/-! DEFINITION. The Line Framer's operation (spec/42_framer.md). -/

namespace Sys2Proof.Machine

/-- `RXB b` (R140): one of the five outcomes of R141, answered `ok = 1` whatever became of the byte. A
completed line is pushed with `rec = fbuf` and `len = cursor` in the same transition (R121). -/
def execRxb (b : Byte) (s : State) : Host.Outcome State Fault Refusal :=
  match s.rxOutcome b with
  | .overflow => .next (s.rewind.answerA true)
  | .ignore => .next (s.answerA true)
  | .pushed =>
      onNext (fun t => t.rewind.answerA true) (queueAppend (s.memReadF s.cursor) s.cursor s)
  | .dropped => .next (s.rewind.answerA true)
  | .store => .next ((s.storeByte b).answerA true)

end Sys2Proof.Machine
end

