-- ==== Sys2Proof/Machine/Operands.lean ====
section
/-! DEFINITION. The one operand that is not in the command word: the record payload of `PUSH` (R85). The operands
in the word are assembled by the decoder (R84). -/

namespace Sys2Proof.Machine

/-- The byte at offset `k` of a payload: bits `[8k+7:8k]` (R54). -/
def byteLane (wdata k : Nat) : Byte := BitVec.ofNat 8 (wdata >>> (8 * k))

/-- The record a payload carries: `C` bytes, offset 0 first (R85). -/
def recordOf (p : Params) (wdata : Nat) : List Byte := (List.range p.c).map (byteLane wdata)

/-- The record on `a_wdata` (R85). -/
def State.payload (s : State) : List Byte := recordOf s.cfg s.aWdata

end Sys2Proof.Machine
end

