-- ==== Sys2Proof/Machine/Queue.lean ====
section
/-! DEFINITION. The Bounded Record Queue's operations (spec/41_queue.md). -/

namespace Sys2Proof.Machine

/-- `PUSH len` with the payload on `a_wdata` (R120). -/
def execPush (len : Nat) (s : State) : Host.Outcome State Fault Refusal :=
  if s.pushFails len then .next s.failA
  else onNext (fun t => t.answerA true) (queueAppend s.payload len s)

/-- `POP len` (R122). The slot read is `slot[head]`, which must exist (R10, log 10). -/
def execPop (len : Nat) (s : State) : Host.Outcome State Fault Refusal :=
  if s.popFails len then .next s.failS
  else if s.head < s.cfg.n then .next (s.dropOldest.answerS true none (memReadQ s.slot s.head len))
  else .fault .slotOutsideQ

/-- `COUNT` (R123). -/
def execCount (s : State) : Host.Outcome State Fault Refusal := .next (s.answerS true (some s.count) [])

/-- `FULL` (R124). -/
def execFull (s : State) : Host.Outcome State Fault Refusal := .next (s.answerS true (some (bitVal s.full)) [])

/-- `EMPTY` (R125). -/
def execEmpty (s : State) : Host.Outcome State Fault Refusal := .next (s.answerS true (some (bitVal s.empty)) [])

/-- `RSTALL` (R126). -/
def execRstall (s : State) : Host.Outcome State Fault Refusal := .next (s.clearQueue.answerS true none [])

/-- `RSTITEM i` (R127). Out of range the block answers `ok = 0` and changes nothing (DESIGN CHOICE to
follow the pseudocode there, log 5). -/
def execRstitem (i : Nat) (s : State) : Host.Outcome State Fault Refusal :=
  if s.cfg.n ≤ i then .next s.failS else .next ((s.clearSlot i).answerS true none [])

end Sys2Proof.Machine
end

