-- ==== Sys2Proof/Machine/Tick.lean ====
section
/-! DEFINITION. The Tick Counter's operations (spec/40_tick.md). -/

namespace Sys2Proof.Machine

/-- `TICK` (R110). -/
def execTick (s : State) : Host.Outcome State Fault Refusal := .next (s.tickUp.answerA true)

/-- `RDTICK` (R111). -/
def execRdtick (s : State) : Host.Outcome State Fault Refusal := .next (s.answerS true (some s.tick) [])

end Sys2Proof.Machine
end

