-- ==== Sys2Proof/Machine/Dispatch.lean ====
section
/-! DEFINITION. The meaning of every operation, one direct call per constructor of `Instr`. -/

namespace Sys2Proof.Machine

def exec (i : Instr) (s : State) : Host.Outcome State Fault Refusal :=
  match i with
  | .tick => Sys2Proof.Machine.execTick s
  | .rxb b => Sys2Proof.Machine.execRxb b s
  | .push len => Sys2Proof.Machine.execPush len s
  | .pop len => Sys2Proof.Machine.execPop len s
  | .count => Sys2Proof.Machine.execCount s
  | .full => Sys2Proof.Machine.execFull s
  | .empty => Sys2Proof.Machine.execEmpty s
  | .rstall => Sys2Proof.Machine.execRstall s
  | .rstitem k => Sys2Proof.Machine.execRstitem k s
  | .rdtick => Sys2Proof.Machine.execRdtick s

end Sys2Proof.Machine
end

