-- ==== Sys2Proof/Machine/Step.lean ====
section
/-! DEFINITION. One step: the next request in the total order, decoded on its port and performed. -/

namespace Sys2Proof.Machine

/-- One step (R60, R61, R88). With nothing presented the block stays as it is: it never halts and no
agent is obliged to do anything (R68 (b), (d)). -/
def step (s : State) : Host.Outcome State Fault Refusal :=
  match s.nextRequest with
  | none => .next s
  | some (p, w, t) =>
    match decode p w with
    | .ok i => exec i t
    | .error e => refuseWord p e t

/-- `s` with the word of a table row presented in front of the inputs, on the port bit 15 names, so that
the very next step decodes and performs it (log 6). -/
def State.withFetchWord (s : State) (nbits w : Nat) : State :=
  { s with inputs := s.requestOf (BitVec.ofNat 16 (w % 2 ^ nbits)) :: s.inputs }

end Sys2Proof.Machine
end

