-- ==== Sys2Proof/Machine/Pseudo.lean ====
section
/-! DEFINITION. The pseudo-operations of R90 and the readers' arithmetic of R13, R113: how the two agents use
the ten operations. They have no encoding and add nothing to the block. Those that do not depend on an answer are
lists of requests, the others are performed by `exec`; what the other agent does between is an argument (log 19). -/

namespace Sys2Proof.Machine

/-- The A-port request of an operation with a payload on the lanes. -/
def requestA (i : Instr) (wdata : Nat) : ARequest := ⟨i.encode, wdata⟩

/-- `RXBUF b0, ..., bk-1` (R90, R150): one event, one `RXB` per byte, in buffer order; an empty batch is no
operation. -/
def rxbuf (wdata : Nat) : List Byte → List Input
  | [] => []
  | b :: bs => [.async (requestA (.rxb b) wdata) (bs.map (fun c => requestA (.rxb c) wdata))]

/-- The S-port request of an operation. -/
def requestS (i : Instr) : Input := .sync i.encode

/-- `RXS "s"` (R90): one `RXB` per byte of the string, in order, in any number of separate events, S-port operations
falling between them. Each entry is one event's bytes and the S-port operations that follow that event; the
string is the concatenation of the events' bytes, and an entry with no bytes holds S-port operations alone. -/
def rxs (wdata : Nat) (events : List (List Byte × List Instr)) : List Input :=
  events.flatMap (fun e => rxbuf wdata e.1 ++ e.2.map requestS)

/-- `TICKS n` (R90): `n` separate timer events. -/
def ticks (wdata n : Nat) : List Input := List.replicate n (.async (requestA .tick wdata) [])

/-- The producer's operations, each with its payload on the lanes, performed one after another. -/
def produce : List (Instr × Nat) → State → Host.Outcome State Fault Refusal
  | [], s => .next s
  | (i, w) :: ops, s => andThen (exec i { s with aWdata := w }) (produce ops)

/-- The producer's operations during one round of `DRAIN`: between its `COUNT` and its `POP C`, and after its
`POP C` (R61). -/
abbrev DrainRound := List (Instr × Nat) × List (Instr × Nat)

/-- `DRAIN` (R90, R14): ask `COUNT`; stop if it answers 0; else `POP C`; again, with the producer's operations
falling between as `rounds` says. The loop goes on for as long as `COUNT` answers otherwise; `rounds` is as much of
it as is looked at, and the truth value answered with the state says whether the last `COUNT` answered 0, so that
the loop stopped (log 20). -/
def drain : List DrainRound → State → Host.Outcome (State × Bool) Fault Refusal
  | [], s => andThen (exec .count s) fun t => .next (t, t.lastVal == some 0)
  | r :: rounds, s =>
    andThen (exec .count s) fun t =>
      if t.lastVal = some 0 then .next (t, true)
      else
        andThen (produce r.1 t) fun u =>
          andThen (exec (.pop u.cfg.c) u) fun v =>
            andThen (produce r.2 v) fun x => drain rounds x

/-- The readers' modular subtraction `(now - start) mod 2^TW` (R13, R113). -/
def elapsed (p : Params) (now start : Nat) : Nat := (now + (2 ^ p.tw - start % 2 ^ p.tw)) % 2 ^ p.tw

/-- `ELAPSED start` (R90): perform `RDTICK`, then subtract `start` from its answer; the number is the reader's and
no state of the block. -/
def readElapsed (start : Nat) (s : State) : Host.Outcome (State × Option Nat) Fault Refusal :=
  andThen (exec .rdtick s) fun t => .next (t, t.lastVal.map (elapsed t.cfg · start))

end Sys2Proof.Machine
end

