-- ==== Sys2Proof/Safety.lean ====
section
/-! DEFINITION. The terms claims are made in: the invariant of R27, R28 and R29, what leaves the block as it is,
the queue's observable content (R128), runs of operations (R68) and what two states must share for no
answer to tell them apart (R34). -/

namespace Sys2Proof

/-- The operation is a status read (R151). -/
def Instr.isStatusRead (i : Instr) : Bool := i == .count || i == .full || i == .empty || i == .rdtick

/-- The operations that push a record where they can: `PUSH`, and `RXB` on `LF` (R25). -/
def Instr.mayPush : Instr → Bool
  | .push _ => true
  | .rxb b => b == 0x0A
  | .tick => false
  | .pop _ => false
  | .count => false
  | .full => false
  | .empty => false
  | .rstall => false
  | .rstitem _ => false
  | .rdtick => false

end Sys2Proof

namespace Sys2Proof.Machine

/-- The invariant of every reachable state: the parameters are legal (R6), every element is in its range
(R20, R31), the queue invariant holds (R27), the cursor is in `[0, C]` (R28), and both byte spaces are
in canonical form and hold only addresses that exist (R50, R51). -/
abbrev State.Inv (s : State) : Prop :=
  s.cfg.Valid ∧ s.tick < 2 ^ s.cfg.tw ∧ s.head < s.cfg.n ∧ s.tail < s.cfg.n ∧ s.count ≤ s.cfg.n ∧
  s.tail = (s.head + s.count) % s.cfg.n ∧ s.cursor ≤ s.cfg.c ∧ Memory.wf s.slot ∧ Memory.wf s.fbuf ∧
  (∀ c ∈ s.slot, c.1 / 4096 < s.cfg.n ∧ c.1 % 4096 < s.cfg.c) ∧ (∀ c ∈ s.fbuf, c.1 < s.cfg.c)

/-- The seven elements of the block (R20) are the same in both states. -/
abbrev State.SameBlock (s t : State) : Prop :=
  t.tick = s.tick ∧ t.slot = s.slot ∧ t.head = s.head ∧ t.tail = s.tail ∧ t.count = s.count ∧
  t.fbuf = s.fbuf ∧ t.cursor = s.cursor

/-- The slot index of the `k`-th oldest record (R57). -/
def State.liveIndex (s : State) (k : Nat) : Nat := (s.head + k) % s.cfg.n

/-- The `C` bytes of slot `i`. -/
def State.record (s : State) (i : Nat) : List Byte := memReadQ s.slot i s.cfg.c

/-- The queue's observable content, oldest record first (R128). -/
def State.live (s : State) : List (List Byte) := (List.range s.count).map (fun k => s.record (s.liveIndex k))

/-- `pad(rec, len)` (R128): the first `len` bytes of `rec`, then `SENT` up to `C` bytes. -/
def pad (p : Params) (rec : List Byte) (len : Nat) : List Byte :=
  rec.take len ++ List.replicate (p.c - (rec.take len).length) Config.sent

/-- The record of `C` bytes of `SENT`. -/
def emptyRecord (p : Params) : List Byte := List.replicate p.c Config.sent

/-- Perform operations one after another (R61), stopping at the first fault or refusal. -/
def execAll : List Instr → State → Host.Outcome State Fault Refusal
  | [], s => .next s
  | i :: is, s =>
    match exec i s with
    | .next t => execAll is t
    | .fault r => .fault r
    | .refused r => .refused r

/-- The operation, from this state, is a push that succeeds: `PUSH` (R120), or `RXB` on `LF` (R121, R140). -/
abbrev State.Pushes (s : State) (i : Instr) : Prop :=
  (∃ len, i = .push len ∧ s.count ≠ s.cfg.n ∧ len ≤ s.cfg.c) ∨
  (i = .rxb 0x0A ∧ s.cursor < s.cfg.c ∧ s.count < s.cfg.n)

/-- None of the operations, performed one after another, is a push that succeeds. -/
def NoPush : List Instr → State → Prop
  | [], _ => True
  | i :: is, s => ¬ s.Pushes i ∧ ∀ t, exec i s = .next t → NoPush is t

/-- `n` steps of the machine, stopping at the first fault or refusal (R68). -/
def runSteps : Nat → State → Host.Outcome State Fault Refusal
  | 0, s => .next s
  | n + 1, s =>
    match step s with
    | .next t => runSteps n t
    | .fault r => .fault r
    | .refused r => .refused r

/-- How many of the operations are `TICK`. -/
def tickCount (is : List Instr) : Nat := is.countP (fun i => i == .tick)

/-- The two states differ at most in what R34 says no operation shows: the bytes of slots that are not
live, the bytes of `fbuf` from the cursor on, and the values of `head` and `tail` themselves. -/
structure State.SameView (s t : State) : Prop where
  cfg : t.cfg = s.cfg
  tick : t.tick = s.tick
  live : t.live = s.live
  count : t.count = s.count
  line : t.memReadF t.cursor = s.memReadF s.cursor
  cursor : t.cursor = s.cursor
  inputs : t.inputs = s.inputs
  aWdata : t.aWdata = s.aWdata
  aOut : t.aOut = s.aOut
  sOut : t.sOut = s.sOut
  draws : t.draws = s.draws

end Sys2Proof.Machine
end

