-- ==== Sys2Proof/Certificates/Slice0/Obligations.lean ====
section
/-! DEFINITION. The statements about the block, from the spec's numbered rules. `t = { s with f := t.f, ... }` says
that every field of the state but those named is as it was. Statements hold for every parameter choice
(R6) and every state; where a state no run reaches could break one, `State.Inv` is its premise, and
`StepKeepsInvariant` says every step keeps that. Where a statement rests on a choice of the spec's own
or on a choice of the model, its docstring says so. -/

open Sys2Proof Sys2Proof.Machine

/-! ## The command word (spec/30_encoding.md) -/

/-- The words of spec/95_test_vectors.md section 2.1, each on its port, and illegal neighbours. -/
def Obligations.TableWordsDecode : Prop :=
  decode .A 0x1000 = .ok .tick ∧ decode .A 0x2072 = .ok (.rxb 0x72) ∧ decode .A 0x20FF = .ok (.rxb 0xFF) ∧
  decode .A 0x3003 = .ok (.push 3) ∧ decode .A 0x3FFF = .ok (.push 4095) ∧ decode .S 0x8008 = .ok (.pop 8) ∧
  decode .S 0x9000 = .ok .count ∧ decode .S 0xA000 = .ok .full ∧ decode .S 0xB000 = .ok .empty ∧
  decode .S 0xC000 = .ok .rstall ∧ decode .S 0xD002 = .ok (.rstitem 2) ∧ decode .S 0xE000 = .ok .rdtick ∧
  decode .A 0x4000 = .error .reservedCode ∧ decode .A 0x1001 = .error .nonzeroArg ∧
  decode .A 0x2172 = .error .nonzeroArg ∧ decode .A 0x8008 = .error .wrongPort ∧
  decode .S 0x3003 = .error .wrongPort ∧ decode .S 0xE00F = .error .nonzeroArg

/-- Decoding an encoded operation gives it back on its own port, and refuses it on the other (R82 to R84, R87 (c)). -/
def Obligations.DecodeOfEncode : Prop :=
  ∀ i : Instr, i.wellFormed = true →
    decode i.port i.encode = .ok i ∧ ∀ p, p ≠ i.port → decode p i.encode = .error .wrongPort

/-- A word decodes only to the well-formed operation of its port whose word it is: each word has one meaning. -/
def Obligations.EncodeOfDecode : Prop :=
  ∀ (p : Port) (w : Word) (i : Instr), decode p w = .ok i → i.wellFormed = true ∧ i.port = p ∧ i.encode = w

/-- The decoding procedure of R88 up to performing the row's rule: the rows disjoint, the all-zero and the all-ones word illegal. -/
def Obligations.DecodingProcedure : Prop :=
  (∀ (p : Port) (w : Word) (i : Instr), decode p w = .ok i ↔
    ∃ r ∈ opcodeMap, w &&& r.mask = r.pattern ∧ r.port = p ∧ r.op.assemble w = i) ∧
  (∀ (p : Port) (w : Word), (¬ ∃ r ∈ opcodeMap, w &&& r.mask = r.pattern ∧ r.port = p) →
    ∃ e, decode p w = .error e) ∧
  (∀ (w : Word), ∀ r ∈ opcodeMap, ∀ r' ∈ opcodeMap,
    w &&& r.mask = r.pattern → w &&& r'.mask = r'.pattern → r = r') ∧
  (∀ p : Port, (∃ e, decode p 0x0000 = .error e) ∧ ∃ e, decode p 0xFFFF = .error e)

/-- A word is refused exactly when one of the three conditions of R87 holds. -/
def Obligations.IllegalExactlyByTheThreeConditions : Prop :=
  ∀ (p : Port) (w : Word), (∃ e, decode p w = .error e) ↔
    opField w ∈ [0x0, 0x4, 0x5, 0x6, 0x7, 0xF] ∨
    (opField w ∈ [0x1, 0x9, 0xA, 0xB, 0xC, 0xE] ∧ argField w ≠ 0) ∨
    (opField w = 0x2 ∧ (argField w).extractLsb' 8 4 ≠ 0) ∨
    (opField w ∈ [0x8, 0x9, 0xA, 0xB, 0xC, 0xD, 0xE] ∧ p = .A) ∨
    (opField w ∈ [0x1, 0x2, 0x3] ∧ p = .S)

/-- Bit 15 of a legal word is 1 exactly for S-port operations (R83, its last sentence). -/
def Obligations.BitFifteenNamesThePort : Prop :=
  ∀ (p : Port) (w : Word) (i : Instr), decode p w = .ok i → (w.msb = true ↔ p = .S)

/-! ## A step (spec/20_memory.md) -/

/-- A step takes the next request of the total order, puts an A-port payload on the lanes, leaves the rest
of the event in front, and performs the decoded operation. -/
def Obligations.StepRunsDecodedRequest : Prop :=
  (∀ (s : State) (w : Word) (rest : List Input) (i : Instr),
    s.inputs = .sync w :: rest → decode .S w = .ok i → step s = exec i { s with inputs := rest }) ∧
  (∀ (s : State) (r : ARequest) (rest : List Input) (i : Instr),
    s.inputs = .async r [] :: rest → decode .A r.cmd = .ok i →
      step s = exec i { s with inputs := rest, aWdata := r.wdata }) ∧
  (∀ (s : State) (r r' : ARequest) (more : List ARequest) (rest : List Input) (i : Instr),
    s.inputs = .async r (r' :: more) :: rest → decode .A r.cmd = .ok i →
      step s = exec i { s with inputs := .async r' more :: rest, aWdata := r.wdata })

/-- With nothing presented the block stays as it is. The model's choice of what a step then is (log 6). -/
def Obligations.StepWithNothingPresented : Prop :=
  ∀ s : State, s.inputs = [] → step s = .next s

/-- An illegal word has no move: the step is refused by name, with its port and its reason. -/
def Obligations.StepRefusesIllegalWord : Prop :=
  (∀ (s : State) (w : Word) (rest : List Input) (e : Illegal),
    s.inputs = .sync w :: rest → decode .S w = .error e → step s = .refused (.illegalWord .S e)) ∧
  (∀ (s : State) (r : ARequest) (more : List ARequest) (rest : List Input) (e : Illegal),
    s.inputs = .async r more :: rest → decode .A r.cmd = .error e → step s = .refused (.illegalWord .A e))

/-- The operations of one event are performed back to back: after one of them the next request is the
event's next, on the A-port, and no S-port answer has been given (R62). -/
def Obligations.EventRunsToCompletion : Prop :=
  ∀ (s t : State) (r r' : ARequest) (more : List ARequest) (rest : List Input),
    s.inputs = .async r (r' :: more) :: rest → step s = .next t →
    t.inputs = .async r' more :: rest ∧ t.sOut = s.sOut ∧ ∃ u, t.nextRequest = some (.A, r'.cmd, u)

/-- `RXBUF b0, ..., bk` has exactly the effect of `RXB b0; ...; RXB bk` with nothing between them (R150, R90). -/
def Obligations.RxbufEqualsItsBytes : Prop :=
  ∀ (s : State) (w : Nat) (b : Byte) (bs : List Byte) (rest : List Input),
    s.inputs = rxbuf w (b :: bs) ++ rest →
    runSteps (bs.length + 1) s =
      execAll ((b :: bs).map Instr.rxb) { s with inputs := rest, aWdata := w }

/-- `RXS` (R90): in whatever events the bytes arrive and whatever the consumer does between, every request is
performed, in order, and the framer is left as the bytes of the string alone leave it. -/
def Obligations.RxsFeedsTheFramer : Prop :=
  ∀ (s : State) (w : Nat) (events : List (List Byte × List Instr)) (rest : List Input), s.Inv →
    (∀ e ∈ events, ∀ i ∈ e.2, i.port = .S ∧ i.wellFormed = true) → s.inputs = rxs w events ++ rest →
    ∃ t u, runSteps (events.map fun e => e.1.length + e.2.length).sum s = .next t ∧ t.inputs = rest ∧
      execAll ((events.flatMap Prod.fst).map Instr.rxb) s = .next u ∧ t.fbuf = u.fbuf ∧ t.cursor = u.cursor ∧
      t.aOut = u.aOut ∧ t.tick = s.tick

/-- `TICKS n` (R90) advances the tick by `n` modulo `2^TW`, in `n` steps, and nothing else of the block. -/
def Obligations.TicksAdvanceTheTick : Prop :=
  ∀ (s : State) (w n : Nat) (rest : List Input), s.tick < 2 ^ s.cfg.tw → s.inputs = ticks w n ++ rest →
    ∃ t, runSteps n s = .next t ∧ t.inputs = rest ∧ t.SameBlock { s with tick := (s.tick + n) % 2 ^ s.cfg.tw }

/-- A `TICK` before an `RXB` cannot be told from a `TICK` after it (R62, U13). -/
def Obligations.TickAndRxbCommute : Prop :=
  ∀ (s : State) (b : Byte), execAll [.tick, .rxb b] s = execAll [.rxb b, .tick] s

/-- A successful push and a successful pop give the same state in either order, while both can succeed
(R61, R67). -/
def Obligations.PushAndPopCommute : Prop :=
  ∀ (s : State) (len k : Nat), s.Inv → 0 < s.count → s.count < s.cfg.n → len ≤ s.cfg.c → k ≤ s.cfg.c →
    ∃ t, execAll [.push len, .pop k] s = .next t ∧ execAll [.pop k, .push len] s = .next t

/-! ## The tick (spec/40_tick.md) -/

/-- R110: `TICK`. -/
def Obligations.TickIncrements : Prop :=
  decode .A 0x1000 = .ok .tick ∧
  (∀ s : State, exec .tick s =
    .next { s with tick := (s.tick + 1) % 2 ^ s.cfg.tw, aOut := true :: s.aOut }) ∧
  (∀ s t : State, s.tick = 2 ^ s.cfg.tw - 1 → exec .tick s = .next t → t.tick = 0) ∧
  (∀ s t : State, s.Inv → exec .tick s = .next t → t.tick ≠ s.tick)

/-- R111: `RDTICK`, and reads with no `TICK`, or a whole period of them, between. -/
def Obligations.RdtickReadsTheTick : Prop :=
  decode .S 0xE000 = .ok .rdtick ∧
  (∀ s : State, ∃ a : SAnswer,
    exec .rdtick s = .next { s with sOut := a :: s.sOut, draws := s.draws + 1 } ∧ a.ok = true ∧ a.val = s.tick) ∧
  (∀ (is : List Instr) (s t u v : State), s.Inv → exec .rdtick s = .next t → execAll is t = .next u →
    tickCount is % 2 ^ s.cfg.tw = 0 → exec .rdtick u = .next v →
    v.sOut.head?.map SAnswer.val = t.sOut.head?.map SAnswer.val)

/-- R29: zero at boot; `TICK` adds one modulo `2^TW`; no other operation writes it. -/
def Obligations.OnlyTickWritesTheTick : Prop :=
  (∀ p : Params, (State.resetWith p).tick = 0) ∧
  (∀ (i : Instr) (s t : State), exec i s = .next t →
    t.tick = if i = .tick then (s.tick + 1) % 2 ^ s.cfg.tw else s.tick) ∧
  (∀ (i : Instr) (s t : State), s.tick < 2 ^ s.cfg.tw → exec i s = .next t → t.tick < 2 ^ t.cfg.tw)

/-- R112: the value law, from any state, from reset, and as the modular difference of two readings. -/
def Obligations.TickValueLaw : Prop :=
  (∀ (is : List Instr) (s t : State), s.tick < 2 ^ s.cfg.tw → execAll is s = .next t →
    t.tick = (s.tick + tickCount is) % 2 ^ s.cfg.tw) ∧
  (∀ (is : List Instr) (p : Params) (t : State), execAll is (State.resetWith p) = .next t →
    t.tick = tickCount is % 2 ^ p.tw) ∧
  (∀ (is : List Instr) (s t : State), s.tick < 2 ^ s.cfg.tw → execAll is s = .next t →
    tickCount is < 2 ^ s.cfg.tw → elapsed s.cfg t.tick s.tick = tickCount is)

/-- R113: the reader's deadline test by modular subtraction is exact while fewer than `2^TW` ticks elapse, and
with a limit of `2^TW - 1` or more it never becomes true. -/
def Obligations.DeadlineTestIsExact : Prop :=
  (∀ (is : List Instr) (s t : State) (limit : Nat), s.tick < 2 ^ s.cfg.tw → execAll is s = .next t →
    tickCount is < 2 ^ s.cfg.tw → (limit < elapsed s.cfg t.tick s.tick ↔ limit < tickCount is)) ∧
  (∀ (p : Params) (now start limit : Nat), 2 ^ p.tw - 1 ≤ limit → ¬ limit < elapsed p now start)

/-- `ELAPSED start` (R90, R13): it performs `RDTICK`, changes nothing else, and from a `start` that an earlier
`RDTICK` answered gives the number of ticks since, while fewer than `2^TW` elapse. -/
def Obligations.ElapsedReadsAndSubtracts : Prop :=
  ∀ (is : List Instr) (s t u : State), s.tick < 2 ^ s.cfg.tw → exec .rdtick s = .next t → execAll is t = .next u →
    tickCount is < 2 ^ s.cfg.tw →
    ∃ v start, t.lastVal = some start ∧ exec .rdtick u = .next v ∧ v.SameBlock u ∧
      readElapsed start u = .next (v, some (tickCount is))

/-! ## The queue (spec/41_queue.md) -/

/-- R120: `PUSH len`. The slot stored to is `slot[tail]`, its `C` bytes at `slotAddr tail k`. -/
def Obligations.PushMeaning : Prop :=
  (∀ len : Nat, len < 4096 → decode .A (0x3000#16 ||| BitVec.ofNat 16 len) = .ok (.push len)) ∧
  (∀ (len : Nat) (s : State), s.count = s.cfg.n ∨ s.cfg.c < len →
    exec (.push len) s = .next { s with aOut := false :: s.aOut }) ∧
  (∀ (len : Nat) (s : State), s.count ≠ s.cfg.n → len ≤ s.cfg.c → s.tail < s.cfg.n →
    ∃ t, exec (.push len) s = .next t ∧
      (∀ k, k < len → t.slotByte s.tail k = byteLane s.aWdata k) ∧
      (∀ k, len ≤ k → k < s.cfg.c → t.slotByte s.tail k = 0x00) ∧
      (∀ a, (∀ k, k < s.cfg.c → a ≠ slotAddr s.tail k) → Memory.read t.slot a = Memory.read s.slot a) ∧
      t = { s with
        slot := t.slot, tail := (s.tail + 1) % s.cfg.n, count := s.count + 1, aOut := true :: s.aOut })

/-- R122: `POP len`. Nothing in either byte space changes; the bytes of a slot, the popped one among them, change
only by a push into it, by `RSTALL` or by `RSTITEM`. -/
def Obligations.PopMeaning : Prop :=
  (∀ len : Nat, len < 4096 → decode .S (0x8000#16 ||| BitVec.ofNat 16 len) = .ok (.pop len)) ∧
  (∀ (len : Nat) (s : State), s.count = 0 ∨ s.cfg.c < len →
    ∃ a : SAnswer, exec (.pop len) s = .next { s with sOut := a :: s.sOut, draws := s.draws + 1 } ∧ a.ok = false) ∧
  (∀ (len : Nat) (s : State), s.count ≠ 0 → len ≤ s.cfg.c → s.head < s.cfg.n →
    ∃ a : SAnswer, exec (.pop len) s = .next { s with
        head := (s.head + 1) % s.cfg.n, count := s.count - 1, sOut := a :: s.sOut, draws := s.draws + 1 } ∧
      a.ok = true ∧ ∀ k, k < len → a.data[k]? = some (s.slotByte s.head k)) ∧
  (∀ (i : Instr) (s t : State) (j k : Nat), s.Inv → j < s.cfg.n → k < s.cfg.c → exec i s = .next t →
    t.slotByte j k ≠ s.slotByte j k → i = .rstall ∨ i = .rstitem j ∨ (j = s.tail ∧ s.Pushes i))

/-- R123: `COUNT`. -/
def Obligations.CountAnswers : Prop :=
  decode .S 0x9000 = .ok .count ∧
  (∀ s : State, ∃ a : SAnswer,
    exec .count s = .next { s with sOut := a :: s.sOut, draws := s.draws + 1 } ∧ a.ok = true ∧ a.val = s.count) ∧
  (∀ s t : State, s.Inv → exec .count s = .next t → ∃ a, t.sOut.head? = some a ∧ a.val ≤ s.cfg.n)

/-- R124: `FULL`, and what its answer 0 guarantees the producer's next push, a `PUSH` or the framer's own on `LF`,
while no other push comes first. -/
def Obligations.FullAnswers : Prop :=
  decode .S 0xA000 = .ok .full ∧
  (∀ s : State, ∃ a : SAnswer,
    exec .full s = .next { s with sOut := a :: s.sOut, draws := s.draws + 1 } ∧ a.ok = true ∧
    a.val = if s.count = s.cfg.n then 1 else 0) ∧
  (∀ s : State, s.Inv → s.cfg.n = 1 → (s.count = s.cfg.n ↔ s.count ≠ 0)) ∧
  (∀ (is : List Instr) (s t : State), s.Inv → s.count ≠ s.cfg.n → NoPush is s → execAll is s = .next t →
    (∀ len, len ≤ s.cfg.c → ∃ u, exec (.push len) t = .next u ∧ u.aOut = true :: t.aOut ∧
      u.live = t.live ++ [pad t.cfg t.payload len]) ∧
    (t.cursor < t.cfg.c → ∃ u, exec (.rxb 0x0A) t = .next u ∧
      u.live = t.live ++ [pad t.cfg (t.memReadF t.cursor) t.cursor]))

/-- R125: `EMPTY`, and what its answer 0 guarantees the consumer's next `POP C`, whatever the producer does and
whatever the consumer does meanwhile short of `RSTALL` and of a `POP` that succeeds. -/
def Obligations.EmptyAnswers : Prop :=
  decode .S 0xB000 = .ok .empty ∧
  (∀ s : State, ∃ a : SAnswer,
    exec .empty s = .next { s with sOut := a :: s.sOut, draws := s.draws + 1 } ∧ a.ok = true ∧
    a.val = if s.count = 0 then 1 else 0) ∧
  (∀ (is : List Instr) (s t : State), s.Inv → s.count ≠ 0 →
    (∀ i ∈ is, i ≠ .rstall ∧ ∀ k, i = .pop k → s.cfg.c < k) → execAll is s = .next t →
    ∃ u a, exec (.pop s.cfg.c) t = .next u ∧ u.sOut.head? = some a ∧ a.ok = true)

/-- R126: `RSTALL`. The tick and the framer stay; a half accumulated line is pushed into the emptied queue when its
`LF` arrives. -/
def Obligations.RstallMeaning : Prop :=
  decode .S 0xC000 = .ok .rstall ∧
  (∀ s : State, ∃ (t : State) (a : SAnswer), exec .rstall s = .next t ∧ a.ok = true ∧
    (∀ i k, i < s.cfg.n → k < s.cfg.c → t.slotByte i k = 0x00) ∧
    (∀ x, (∀ i k, i < s.cfg.n → k < s.cfg.c → x ≠ slotAddr i k) → Memory.read t.slot x = Memory.read s.slot x) ∧
    t = { s with
      slot := t.slot, head := 0, tail := 0, count := 0, sOut := a :: s.sOut, draws := s.draws + 1 }) ∧
  (∀ s : State, s.Inv → s.cursor < s.cfg.c → ∃ t, execAll [.rstall, .rxb 0x0A] s = .next t ∧
    t.live = [pad s.cfg (s.memReadF s.cursor) s.cursor] ∧ t.cursor = 0)

/-- R127 with the index in range: `RSTITEM i` clears slot `i`, live or not, and touches nothing else. -/
def Obligations.RstitemInRange : Prop :=
  (∀ i : Nat, i < 4096 → decode .S (0xD000#16 ||| BitVec.ofNat 16 i) = .ok (.rstitem i)) ∧
  ∀ (i : Nat) (s : State), i < s.cfg.n → ∃ (t : State) (a : SAnswer), exec (.rstitem i) s = .next t ∧ a.ok = true ∧
    (∀ k, k < s.cfg.c → t.slotByte i k = 0x00) ∧
    (∀ x, (∀ k, k < s.cfg.c → x ≠ slotAddr i k) → Memory.read t.slot x = Memory.read s.slot x) ∧
    t = { s with slot := t.slot, sOut := a :: s.sOut, draws := s.draws + 1 }

/-- `RSTITEM i` with `i >= N` answers `ok = 0` and changes nothing. This is the model's choice to follow the
pseudocode of R127 where U3 advises a fault (log 5). -/
def Obligations.RstitemOutOfRangeFails : Prop :=
  ∀ (i : Nat) (s : State), s.cfg.n ≤ i →
    ∃ a : SAnswer, exec (.rstitem i) s = .next { s with sOut := a :: s.sOut, draws := s.draws + 1 } ∧ a.ok = false

/-- R128: a successful push appends the padded record to the queue's content. -/
def Obligations.PushAppendsTheRecord : Prop :=
  ∀ (len : Nat) (s : State), s.Inv → s.count ≠ s.cfg.n → len ≤ s.cfg.c →
    ∃ t, exec (.push len) s = .next t ∧ t.live = s.live ++ [pad s.cfg s.payload len]

/-- R128: a successful pop removes the oldest record and answers its first `len` bytes. -/
def Obligations.PopRemovesTheOldestRecord : Prop :=
  ∀ (len : Nat) (s : State), s.Inv → s.count ≠ 0 → len ≤ s.cfg.c →
    ∃ t a r, exec (.pop len) s = .next t ∧ s.live = r :: t.live ∧ t.sOut = a :: s.sOut ∧ a.ok = true ∧
      a.data.take len = r.take len

/-- R128: `RSTALL` empties the queue's content; `RSTITEM i` replaces the record in slot `i`, if it is live, by
the all-`SENT` record and leaves every other record. -/
def Obligations.ResetsOnTheContent : Prop :=
  (∀ s : State, ∃ t, exec .rstall s = .next t ∧ t.live = []) ∧
  (∀ (i : Nat) (s : State), s.Inv → i < s.cfg.n → ∃ t, exec (.rstitem i) s = .next t ∧
    t.live = (List.range s.count).map fun k =>
      if s.liveIndex k = i then emptyRecord s.cfg else s.record (s.liveIndex k))

/-- R129: occupancy bounds, failure without mutation, FIFO order of three records, round trip. The last two
run the machine on requests presented on the ports. -/
def Obligations.QueueTestableProperties : Prop :=
  (∀ (is : List Instr) (s t : State), s.Inv → execAll is s = .next t → t.count ≤ t.cfg.n) ∧
  (∀ (len : Nat) (s t : State), s.count = s.cfg.n → exec (.push len) s = .next t →
    t.aOut = false :: s.aOut ∧ s.SameBlock t) ∧
  (∀ (len : Nat) (s t : State), s.count = 0 → exec (.pop len) s = .next t →
    t.sOut.head?.map SAnswer.ok = some false ∧ s.SameBlock t) ∧
  (∀ (s : State) (l₁ l₂ l₃ w₁ w₂ w₃ : Nat) (rest : List Input), s.Inv → s.count = 0 → 3 ≤ s.cfg.n →
    l₁ ≤ s.cfg.c → l₂ ≤ s.cfg.c → l₃ ≤ s.cfg.c →
    s.inputs = [.async (requestA (.push l₁) w₁) [], .async (requestA (.push l₂) w₂) [],
      .async (requestA (.push l₃) w₃) [], requestS (.pop s.cfg.c), requestS (.pop s.cfg.c),
      requestS (.pop s.cfg.c)] ++ rest →
    ∃ (t : State) (a₁ a₂ a₃ : SAnswer), runSteps 6 s = .next t ∧ t.sOut = a₃ :: a₂ :: a₁ :: s.sOut ∧
      a₁.ok = true ∧ a₂.ok = true ∧ a₃.ok = true ∧
      a₁.data = pad s.cfg (recordOf s.cfg w₁) l₁ ∧ a₂.data = pad s.cfg (recordOf s.cfg w₂) l₂ ∧
      a₃.data = pad s.cfg (recordOf s.cfg w₃) l₃) ∧
  (∀ (s : State) (len w : Nat) (rest : List Input), s.Inv → s.count = 0 → len ≤ s.cfg.c →
    s.inputs = [.async (requestA (.push len) w) [], requestS (.pop s.cfg.c)] ++ rest →
    ∃ (t : State) (a : SAnswer), runSteps 2 s = .next t ∧ t.sOut = a :: s.sOut ∧ a.ok = true ∧
      (∀ k, k < len → a.data[k]? = some (byteLane w k)) ∧
      (∀ k, len ≤ k → k < s.cfg.c → a.data[k]? = some 0x00))

/-- `DRAIN` (R90) while the producer is silent stops with `COUNT` at 0, having answered every record in order: the
pop of record `k` stands below the later answers, which come newest first. -/
def Obligations.DrainReturnsEveryRecordInOrder : Prop :=
  ∀ s : State, s.Inv → ∃ t, drain (List.replicate s.count ([], [])) s = .next (t, true) ∧ t.count = 0 ∧
    t.sOut.length = s.sOut.length + 2 * s.count + 1 ∧
    ∀ k, k < s.count → ∃ a : SAnswer,
      t.sOut[2 * (s.count - 1 - k) + 1]? = some a ∧ a.ok = true ∧ s.live[k]? = some a.data

/-- `DRAIN` (R90, R14, R61) while the producer does anything between its operations: none of its `POP`s fails, it
stops exactly with an empty queue, and it has stopped once it was given a round for every record that was
waiting and for every operation of the producer that may push. -/
def Obligations.DrainAmidTheProducer : Prop :=
  ∀ (rounds : List DrainRound) (s : State), s.Inv →
    (∀ r ∈ rounds, ∀ x ∈ r.1 ++ r.2, x.1.port = .A) →
    ∃ (t : State) (stopped : Bool) (as : List SAnswer), drain rounds s = .next (t, stopped) ∧ t.Inv ∧
      t.sOut = as ++ s.sOut ∧ (∀ a ∈ as, a.ok = true) ∧ (stopped = true ↔ t.count = 0) ∧
      (s.count + (rounds.flatMap fun r => r.1 ++ r.2).countP (fun x => x.1.mayPush) ≤ rounds.length →
        stopped = true)

/-! ## The framer (spec/42_framer.md) -/

/-- R140: `RXB b`, the four tests in their order. The slot stored to on `LF` is `slot[tail]`, its bytes at
`slotAddr tail k`; a content byte is stored at `fbuf[cursor]`. -/
def Obligations.RxbMeaning : Prop :=
  (∀ b : Byte, decode .A (0x2000#16 ||| b.setWidth 16) = .ok (.rxb b)) ∧
  ∀ (b : Byte) (s : State),
    if s.cfg.c ≤ s.cursor then
      exec (.rxb b) s = .next { s with cursor := 0, aOut := true :: s.aOut }
    else if b = 0x0D then
      exec (.rxb b) s = .next { s with aOut := true :: s.aOut }
    else if b = 0x0A then
      if s.count < s.cfg.n then
        s.tail < s.cfg.n → ∃ t, exec (.rxb b) s = .next t ∧
          (∀ k, k < s.cursor → t.slotByte s.tail k = s.fbufByte k) ∧
          (∀ k, s.cursor ≤ k → k < s.cfg.c → t.slotByte s.tail k = 0x00) ∧
          (∀ a, (∀ k, k < s.cfg.c → a ≠ slotAddr s.tail k) → Memory.read t.slot a = Memory.read s.slot a) ∧
          t = { s with
            slot := t.slot, tail := (s.tail + 1) % s.cfg.n, count := s.count + 1, cursor := 0,
            aOut := true :: s.aOut }
      else
        exec (.rxb b) s = .next { s with cursor := 0, aOut := true :: s.aOut }
    else
      ∃ t, exec (.rxb b) s = .next t ∧ t.fbufByte s.cursor = b ∧
        (∀ a, a ≠ s.cursor → Memory.read t.fbuf a = Memory.read s.fbuf a) ∧
        t = { s with fbuf := t.fbuf, cursor := s.cursor + 1, aOut := true :: s.aOut }

/-- R143: every record the framer pushes is at most `C - 1` bytes long and ends in a `SENT` byte. -/
def Obligations.FramedRecordKeepsASentinel : Prop :=
  ∀ (b : Byte) (s t : State), s.Inv → exec (.rxb b) s = .next t → t.count ≠ s.count →
    s.cursor ≤ s.cfg.c - 1 ∧ t.slotByte s.tail (s.cfg.c - 1) = 0x00

/-- R144: the framing law, with R146 where the queue is full and R147 for the empty line. -/
def Obligations.FramingLaw : Prop :=
  ∀ (s : State) (cs : List Byte), s.Inv → s.cursor = 0 → (∀ b ∈ cs, b ≠ 0x0A) →
    (cs.filter (fun b => b ≠ 0x0D)).length ≤ s.cfg.c - 1 →
    ∃ t, execAll ((cs ++ [0x0A]).map Instr.rxb) s = .next t ∧ t.cursor = 0 ∧
      (s.count < s.cfg.n →
        t.live = s.live ++ [pad s.cfg (cs.filter (fun b => b ≠ 0x0D)) (cs.filter (fun b => b ≠ 0x0D)).length]) ∧
      (s.count = s.cfg.n → t.live = s.live)

/-- R145: of `C + 1` content bytes with no `LF` the last overflows; all are lost and the framer is idle. -/
def Obligations.OverlongLineIsLost : Prop :=
  ∀ (s : State) (bs : List Byte), s.Inv → s.cursor = 0 → (∀ b ∈ bs, b ≠ 0x0A ∧ b ≠ 0x0D) →
    bs.length = s.cfg.c + 1 →
    ∃ t, execAll (bs.map Instr.rxb) s = .next t ∧ t.cursor = 0 ∧ t.slot = s.slot ∧ t.head = s.head ∧
      t.tail = s.tail ∧ t.count = s.count

/-! ## The whole machine -/

/-- R191: the state after reset, for every choice of the parameters. -/
def Obligations.ResetLeaves : Prop :=
  ∀ p : Params, p.Valid →
    (State.resetWith p).tick = 0 ∧ (State.resetWith p).head = 0 ∧ (State.resetWith p).tail = 0 ∧
    (State.resetWith p).count = 0 ∧ (State.resetWith p).cursor = 0 ∧
    (∀ i j, (State.resetWith p).slotByte i j = 0x00) ∧ (∀ j, (State.resetWith p).fbufByte j = 0x00) ∧
    (∃ t a, exec .empty (State.resetWith p) = .next t ∧ t.sOut = [a] ∧ a.val = 1) ∧
    (∃ t a, exec .full (State.resetWith p) = .next t ∧ t.sOut = [a] ∧ a.val = 0) ∧
    (∃ t a, exec .count (State.resetWith p) = .next t ∧ t.sOut = [a] ∧ a.val = 0) ∧
    (State.resetWith p).tail = ((State.resetWith p).head + (State.resetWith p).count) % p.n

/-- The invariant holds at reset for every choice of the parameters, and for the model's own choice of them,
the test configuration (log 2). -/
def Obligations.ResetMeetsInvariant : Prop :=
  (∀ p : Params, p.Valid → (State.resetWith p).Inv) ∧ State.reset.Inv

/-- Every step keeps the invariant (R27, R28, R29, R156; the canonical form of both byte spaces). -/
def Obligations.StepKeepsInvariant : Prop :=
  ∀ s t : State, s.Inv → step s = .next t → t.Inv

/-- R156, R131: from the invariant every operation, with every operand, completes and keeps it. -/
def Obligations.EveryOperationCompletes : Prop :=
  ∀ (i : Instr) (s : State), s.Inv → ∃ t, exec i s = .next t ∧ t.Inv

/-- R160: from the invariant a step never faults, and it is refused only for an illegal word (R87). -/
def Obligations.StepStopsOnlyOnIllegalWords : Prop :=
  ∀ s : State, s.Inv →
    (∀ f, step s ≠ .fault f) ∧
    (∀ r, step s = .refused r → ∃ p w u e, s.nextRequest = some (p, w, u) ∧ decode p w = .error e ∧
      r = .illegalWord p e)

/-- R24: `head`. -/
def Obligations.HeadRule : Prop :=
  ∀ (i : Instr) (s t : State), s.Inv → exec i s = .next t →
    t.head < t.cfg.n ∧
    (i = .rstall → t.head = 0) ∧
    (∀ len, i = .pop len → s.count ≠ 0 → len ≤ s.cfg.c → t.head = (s.head + 1) % s.cfg.n ∧
      ∃ a : SAnswer, t.sOut = a :: s.sOut ∧ ∀ k, k < len → a.data[k]? = some (s.slotByte s.head k)) ∧
    (i ≠ .rstall → (¬ ∃ len, i = .pop len ∧ s.count ≠ 0 ∧ len ≤ s.cfg.c) → t.head = s.head)

/-- R25: `tail`; the slot a push writes is `slot[tail]` and no other. -/
def Obligations.TailRule : Prop :=
  ∀ (i : Instr) (s t : State), s.Inv → exec i s = .next t →
    t.tail < t.cfg.n ∧
    (i = .rstall → t.tail = 0) ∧
    (s.Pushes i →
      t.tail = (s.tail + 1) % s.cfg.n ∧
      (∀ len, i = .push len → t.record s.tail = pad s.cfg s.payload len) ∧
      (i = .rxb 0x0A → t.record s.tail = pad s.cfg (s.memReadF s.cursor) s.cursor) ∧
      ∀ j k, j < s.cfg.n → k < s.cfg.c → j ≠ s.tail → t.slotByte j k = s.slotByte j k) ∧
    (i ≠ .rstall → ¬ s.Pushes i → t.tail = s.tail)

/-- R26: `count`. -/
def Obligations.CountRule : Prop :=
  ∀ (i : Instr) (s t : State), s.Inv → exec i s = .next t →
    t.count ≤ t.cfg.n ∧
    (i = .rstall → t.count = 0) ∧
    (s.Pushes i → t.count = s.count + 1) ∧
    (∀ len, i = .pop len → s.count ≠ 0 → len ≤ s.cfg.c → t.count + 1 = s.count) ∧
    (i ≠ .rstall → ¬ s.Pushes i →
      (¬ ∃ len, i = .pop len ∧ s.count ≠ 0 ∧ len ≤ s.cfg.c) → t.count = s.count)

/-- R22, R28, R31: the framer's state is `RXB`'s alone; the cursor moves by one or back to 0, stays in
`[0, C]`, and `fbuf` changes at the cursor only. -/
def Obligations.FramerStateIsRxbAlone : Prop :=
  ∀ (i : Instr) (s t : State), exec i s = .next t →
    ((∀ b, i ≠ .rxb b) → t.cursor = s.cursor ∧ t.fbuf = s.fbuf) ∧
    (t.cursor = s.cursor ∨ t.cursor = s.cursor + 1 ∨ t.cursor = 0) ∧
    (s.cursor ≤ s.cfg.c → t.cursor ≤ t.cfg.c) ∧
    (∀ a, Memory.read t.fbuf a ≠ Memory.read s.fbuf a → a = s.cursor ∧ s.cursor < s.cfg.c)

/-- R21: no operation writes a slot other than `slot[tail]` (`PUSH`, `RXB` on `LF`), but for `RSTALL` and
`RSTITEM i`, and none writes outside space Q. -/
def Obligations.SlotWriters : Prop :=
  ∀ (i : Instr) (s t : State) (a : Nat), s.Inv → exec i s = .next t →
    Memory.read t.slot a ≠ Memory.read s.slot a →
    ∃ j k, j < s.cfg.n ∧ k < s.cfg.c ∧ a = slotAddr j k ∧
      (i = .rstall ∨ i = .rstitem j ∨ (j = s.tail ∧ ((∃ len, i = .push len) ∨ i = .rxb 0x0A)))

/-- R59: pure reads, the destructive read, failed operations. -/
def Obligations.ReadsAndFailuresChangeNothing : Prop :=
  (∀ (i : Instr) (s t : State), i.isStatusRead = true → exec i s = .next t → s.SameBlock t) ∧
  (∀ (i : Instr) (is : List Instr) (s t u v : State), i.isStatusRead = true → (∀ j ∈ is, j.isStatusRead = true) →
    exec i s = .next t → execAll is t = .next u → exec i u = .next v →
    v.sOut.head?.map SAnswer.val = t.sOut.head?.map SAnswer.val) ∧
  (∀ (len : Nat) (s t : State) (a : SAnswer), s.Inv → exec (.pop len) s = .next t → t.sOut = a :: s.sOut →
    a.ok = true → s.live.tail = t.live ∧ t.count + 1 = s.count) ∧
  (∀ (i : Instr) (s t : State), exec i s = .next t →
    (t.aOut = false :: s.aOut ∨ ∃ a : SAnswer, t.sOut = a :: s.sOut ∧ a.ok = false) → s.SameBlock t)

/-- R6: the parameters are fixed for the life of an instance. -/
def Obligations.ParametersNeverChange : Prop :=
  ∀ (n : Nat) (s t : State), runSteps n s = .next t → t.cfg = s.cfg

/-- R67, R20: what each port's operations leave alone. A-port operations never move `head` nor answer on the
S-port, S-port operations never touch the tick or the framer nor answer on the A-port, and only `RSTALL`
of them moves `tail`. -/
def Obligations.WhatEachPortLeavesAlone : Prop :=
  ∀ (i : Instr) (s t : State), exec i s = .next t →
    t.inputs = s.inputs ∧ t.aWdata = s.aWdata ∧ t.cfg = s.cfg ∧
    (i.port = .A → t.head = s.head ∧ t.sOut = s.sOut ∧ t.draws = s.draws ∧ ∃ ok, t.aOut = ok :: s.aOut) ∧
    (i.port = .S → t.tick = s.tick ∧ t.fbuf = s.fbuf ∧ t.cursor = s.cursor ∧ t.aOut = s.aOut ∧
      (i ≠ .rstall → t.tail = s.tail) ∧ ∃ a, t.sOut = a :: s.sOut)

/-- R34: bytes of slots that are not live, bytes of `fbuf` from the cursor on, and, for every operation but
`RSTITEM`, the value of `head` itself never reach an answer: two states that differ in them only answer
alike, for ever. For `RSTITEM`, which takes an absolute index, the two heads must be equal (log 16). -/
def Obligations.HiddenStateReachesNoAnswer : Prop :=
  ∀ (i : Instr) (s s' t : State), s.Inv → s'.Inv → s.SameView s' →
    ((∀ k, i ≠ .rstitem k) ∨ s.head = s'.head) → exec i s = .next t →
    ∃ t', exec i s' = .next t' ∧ t.SameView t'

/-- The value of `head` does reach an answer through `RSTITEM` (R127 (b)), against the letter of R34 (c):
two states of one content that `RSTITEM 0` tells apart (log 16). -/
def Obligations.RstitemTellsHeadsApart : Prop :=
  ∃ s s' t t' : State, s.Inv ∧ s'.Inv ∧ s.SameView s' ∧ exec (.rstitem 0) s = .next t ∧
    exec (.rstitem 0) s' = .next t' ∧ t.live ≠ t'.live

/-- R81, R6: every answer on the S-port fits its wires, `val` in `VW` bits and `data` in `C` bytes. -/
def Obligations.AnswersFitTheirWires : Prop :=
  ∀ (i : Instr) (s t : State), s.Inv → exec i s = .next t →
    ∀ a ∈ t.sOut, a ∈ s.sOut ∨ (a.val < 2 ^ s.cfg.vw ∧ a.data.length = s.cfg.c)

/-- R6: the derived widths hold what the control fields hold. -/
def Obligations.IndicesFitTheirWidths : Prop :=
  ∀ s : State, s.Inv → s.head < 2 ^ s.cfg.iw ∧ s.tail < 2 ^ s.cfg.iw ∧ s.count < 2 ^ s.cfg.cw ∧
    s.cursor < 2 ^ s.cfg.uw

/-- No operation is refused, from any state: a refusal is of a word, never of an operation (R131, R160). -/
def Obligations.NoOperationIsRefused : Prop :=
  ∀ (i : Instr) (s : State) (r : Refusal), exec i s ≠ .refused r
end

