-- ==== Sys2Proof/Laws/Decode.lean ====
section
/-! SUPPORT. The two fields of a command word determine it, and how the mask tests of R83 read on them. -/

namespace Sys2Proof

@[simp] theorem opField_makeWord (op : BitVec 4) (arg : BitVec 12) : opField (makeWord op arg) = op :=
  BitVec.extractLsb'_append_eq_left

@[simp] theorem argField_makeWord (op : BitVec 4) (arg : BitVec 12) : argField (makeWord op arg) = arg :=
  BitVec.extractLsb'_append_eq_right

/-- Every word is the word of its fields. -/
theorem makeWord_fields (w : Word) : makeWord (opField w) (argField w) = w := by
  unfold makeWord opField argField
  rw [BitVec.extractLsb'_append_extractLsb'_eq_extractLsb' (by omega)]
  simp

theorem makeWord_inj {op op' : BitVec 4} {arg arg' : BitVec 12} :
    makeWord op arg = makeWord op' arg' ↔ op = op' ∧ arg = arg' := by
  constructor
  · intro h
    exact ⟨by simpa using congrArg opField h, by simpa using congrArg argField h⟩
  · rintro ⟨rfl, rfl⟩; rfl

theorem makeWord_and (op op' : BitVec 4) (arg arg' : BitVec 12) :
    makeWord op arg &&& makeWord op' arg' = makeWord (op &&& op') (arg &&& arg') := BitVec.and_append

/-- A row whose mask and pattern have the fields shown selects a word by its fields. -/
theorem selects_makeWord (o : Op) (p : Port) (op mo po : BitVec 4) (arg ma pa : BitVec 12) :
    (Row.mk o p (makeWord po pa) (makeWord mo ma)).selects (makeWord op arg) =
      (op &&& mo == po && arg &&& ma == pa) := by
  rw [Bool.eq_iff_iff]
  simp [Row.selects, makeWord_and, makeWord_inj]

/-- The byte of `RXB` lies in the low eight bits of `arg` (R84). -/
theorem byteField_makeWord (op : BitVec 4) (arg : BitVec 12) :
    byteField (makeWord op arg) = arg.extractLsb' 0 8 := by
  unfold byteField makeWord
  exact BitVec.extractLsb'_append_eq_of_add_le (by omega)

/-- The opcode map of R83 with each mask and pattern written by its fields. -/
theorem opcodeMap_fields : opcodeMap = [
    ⟨.tick, .A, makeWord 0x1 0, makeWord 0xF 0xFFF⟩, ⟨.rxb, .A, makeWord 0x2 0, makeWord 0xF 0xF00⟩,
    ⟨.push, .A, makeWord 0x3 0, makeWord 0xF 0⟩, ⟨.pop, .S, makeWord 0x8 0, makeWord 0xF 0⟩,
    ⟨.count, .S, makeWord 0x9 0, makeWord 0xF 0xFFF⟩, ⟨.full, .S, makeWord 0xA 0, makeWord 0xF 0xFFF⟩,
    ⟨.empty, .S, makeWord 0xB 0, makeWord 0xF 0xFFF⟩, ⟨.rstall, .S, makeWord 0xC 0, makeWord 0xF 0xFFF⟩,
    ⟨.rstitem, .S, makeWord 0xD 0, makeWord 0xF 0⟩, ⟨.rdtick, .S, makeWord 0xE 0, makeWord 0xF 0xFFF⟩] := by
  decide

/-- The sixteen values of the field `op`. -/
theorem opField_cases : ∀ op : BitVec 4, op = 0x0 ∨ op = 0x1 ∨ op = 0x2 ∨ op = 0x3 ∨ op = 0x4 ∨ op = 0x5 ∨
    op = 0x6 ∨ op = 0x7 ∨ op = 0x8 ∨ op = 0x9 ∨ op = 0xA ∨ op = 0xB ∨ op = 0xC ∨ op = 0xD ∨ op = 0xE ∨
    op = 0xF := by decide

/-- What the decoder answers for a word, by the fields of the word (R83, R87, R88). -/
theorem decode_makeWord (p : Port) (op : BitVec 4) (arg : BitVec 12) :
    decode p (makeWord op arg) =
      if op = 0x1 then
        if arg = 0 then (if p = .A then .ok .tick else .error .wrongPort) else .error .nonzeroArg
      else if op = 0x2 then
        if arg &&& 0xF00 = 0 then (if p = .A then .ok (.rxb (arg.extractLsb' 0 8)) else .error .wrongPort)
        else .error .nonzeroArg
      else if op = 0x3 then (if p = .A then .ok (.push arg.toNat) else .error .wrongPort)
      else if op = 0x8 then (if p = .S then .ok (.pop arg.toNat) else .error .wrongPort)
      else if op = 0x9 then
        if arg = 0 then (if p = .S then .ok .count else .error .wrongPort) else .error .nonzeroArg
      else if op = 0xA then
        if arg = 0 then (if p = .S then .ok .full else .error .wrongPort) else .error .nonzeroArg
      else if op = 0xB then
        if arg = 0 then (if p = .S then .ok .empty else .error .wrongPort) else .error .nonzeroArg
      else if op = 0xC then
        if arg = 0 then (if p = .S then .ok .rstall else .error .wrongPort) else .error .nonzeroArg
      else if op = 0xD then (if p = .S then .ok (.rstitem arg.toNat) else .error .wrongPort)
      else if op = 0xE then
        if arg = 0 then (if p = .S then .ok .rdtick else .error .wrongPort) else .error .nonzeroArg
      else .error .reservedCode := by
  have hA : arg &&& 0xFFF = arg := by
    rw [show (0xFFF : BitVec 12) = BitVec.allOnes 12 by decide, BitVec.and_allOnes]
  have hz : arg &&& 0 = 0 := by simp
  unfold decode
  rw [opcodeMap_fields]
  simp only [List.find?_cons, selects_makeWord, hA, hz, List.find?_nil, opField_makeWord, Op.assemble,
    argField_makeWord, byteField_makeWord]
  clear hA hz
  have zero : ∀ x : BitVec 12, (x = 0#12 ∧ (x == 0#12) = true) ∨ (¬ x = 0#12 ∧ (x == 0#12) = false) := fun x => by
    by_cases h : x = 0#12 <;> simp [h]
  obtain ⟨k, rfl⟩ : ∃ k : Fin 16, op = BitVec.ofFin k := ⟨op.toFin, rfl⟩
  obtain ⟨h0, h0'⟩ | ⟨h0, h0'⟩ := zero arg <;> obtain ⟨h1, h1'⟩ | ⟨h1, h1'⟩ := zero (arg &&& 0xF00#12) <;>
    fin_cases k <;> cases p <;> simp (decide := true) [h0, h0', h1, h1']

end Sys2Proof
end

