-- ==== Sys2Proof/Laws/Memory.lean ====
section
/-! SUPPORT. What a byte reads as after each memory operation, that each keeps the canonical form, which
addresses it can list, and that equal reads mean equal memories. -/

namespace Sys2Proof.Machine

/-! ### Reads -/

@[simp] theorem Memory.read_nil (a : Nat) : Memory.read [] a = Config.sent := rfl

theorem Memory.read_cons (c : Host.Cell) (m : Memory) (a : Nat) :
    Memory.read (c :: m) a = if c.1 = a then c.2 else Memory.read m a := rfl

theorem Memory.read_of_unlisted {m : Memory} {a : Nat} (h : ∀ c ∈ m, c.1 ≠ a) :
    Memory.read m a = Config.sent := by
  induction m with
  | nil => rfl
  | cons c m ih =>
    rw [Memory.read_cons, if_neg (h c (by simp))]
    exact ih fun d hd => h d (by simp [hd])

theorem Memory.read_filter (q : Nat → Bool) (m : Memory) (a : Nat) :
    Memory.read (m.filter (fun c => q c.1)) a = if q a then Memory.read m a else Config.sent := by
  induction m with
  | nil => simp
  | cons c m ih =>
    by_cases hc : q c.1 = true
    · rw [List.filter_cons_of_pos (by simpa using hc), Memory.read_cons, Memory.read_cons, ih]
      by_cases ha : c.1 = a
      · subst ha; simp [hc]
      · simp [ha]
    · rw [List.filter_cons_of_neg (by simpa using hc), ih, Memory.read_cons]
      by_cases ha : c.1 = a
      · subst ha; simp [hc]
      · simp [ha]

theorem Memory.read_place {m : Memory} {c : Host.Cell} (h : ∀ d ∈ m, d.1 ≠ c.1) (a : Nat) :
    Memory.read (Memory.place m c) a = if c.1 = a then c.2 else Memory.read m a := by
  induction m with
  | nil => rfl
  | cons d m ih =>
    have hd : d.1 ≠ c.1 := h d (by simp)
    simp only [Memory.place]
    split
    · rfl
    · rw [Memory.read_cons, ih fun e he => h e (by simp [he]), Memory.read_cons]
      by_cases h1 : d.1 = a
      · rw [if_pos h1, if_pos h1, if_neg fun h2 => hd (h1.trans h2.symm)]
      · rw [if_neg h1, if_neg h1]

/-- A write gives the byte written at its address and leaves every other address alone. -/
theorem Memory.read_write (m : Memory) (a : Nat) (b : Byte) (x : Nat) :
    Memory.read (Memory.write m a b) x = if a = x then b else Memory.read m x := by
  have hf := Memory.read_filter (fun k => decide (k ≠ a)) m x
  unfold Memory.write
  split
  · next hb =>
    rw [hf]
    by_cases h : a = x
    · simp [h, hb]
    · simp [h, Ne.symm h]
  · rw [Memory.read_place (by simp), hf]
    by_cases h : a = x
    · simp [h]
    · simp [h, Ne.symm h]

theorem Memory.read_writeBytes (bs : List Byte) (m : Memory) (a x : Nat) :
    Memory.read (Memory.writeBytes m a bs) x =
      if a ≤ x ∧ x < a + bs.length then bs.getD (x - a) Config.sent else Memory.read m x := by
  induction bs generalizing m a with
  | nil => simp only [Memory.writeBytes, List.length_nil]; rw [if_neg (by omega)]
  | cons b bs ih =>
    rw [Memory.writeBytes, ih, Memory.read_write, List.length_cons]
    by_cases h : a = x
    · subst h
      rw [if_neg (by omega), if_pos rfl, if_pos (by omega)]; simp
    · by_cases h2 : a + 1 ≤ x ∧ x < a + 1 + bs.length
      · rw [if_pos h2, if_pos (by omega), show x - a = (x - (a + 1)) + 1 by omega]; simp
      · rw [if_neg h2, if_neg h, if_neg (by omega)]

/-- A clear makes its range read as `SENT` and leaves every other address alone. -/
theorem Memory.read_clear (m : Memory) (a n x : Nat) :
    Memory.read (Memory.clear m a n) x = if a ≤ x ∧ x < a + n then Config.sent else Memory.read m x := by
  have hf := Memory.read_filter (fun k => decide (¬ (a ≤ k ∧ k < a + n))) m x
  unfold Memory.clear
  rw [hf]
  by_cases h : a ≤ x ∧ x < a + n <;> simp [h]

@[simp] theorem Memory.length_readBytes (m : Memory) (a n : Nat) : (Memory.readBytes m a n).length = n := by
  simp [Memory.readBytes]

theorem Memory.getElem_readBytes (m : Memory) (a n k : Nat) (h : k < (Memory.readBytes m a n).length) :
    (Memory.readBytes m a n)[k] = Memory.read m (a + k) := by simp [Memory.readBytes]

theorem Memory.readBytes_congr {m m' : Memory} {a a' n : Nat}
    (h : ∀ k < n, Memory.read m (a + k) = Memory.read m' (a' + k)) :
    Memory.readBytes m a n = Memory.readBytes m' a' n := by
  simpa [Memory.readBytes] using h

/-! ### The canonical form -/

theorem Memory.wf_nil : Memory.wf [] := by decide

theorem Memory.wf_filter {m : Memory} (h : Memory.wf m) (q : Host.Cell → Bool) : Memory.wf (m.filter q) :=
  ⟨h.1.filter q, fun c hc => h.2 c (List.mem_of_mem_filter hc)⟩

theorem Memory.mem_place {m : Memory} {c d : Host.Cell} : d ∈ Memory.place m c ↔ d = c ∨ d ∈ m := by
  induction m with
  | nil => simp [Memory.place]
  | cons e m ih =>
    simp only [Memory.place]
    split
    · simp
    · simp [ih, or_left_comm]

theorem Memory.wf_place {m : Memory} {c : Host.Cell} (h : Memory.wf m) (hc : c.2 ≠ Config.sent)
    (hn : ∀ d ∈ m, d.1 ≠ c.1) : Memory.wf (Memory.place m c) := by
  refine ⟨?_, fun d hd => ?_⟩
  · induction m with
    | nil => simp [Memory.place]
    | cons e m ih =>
      obtain ⟨h1, h2⟩ := List.pairwise_cons.mp h.1
      have ih' := ih ⟨h2, fun d hd => h.2 d (by simp [hd])⟩ fun d hd => hn d (by simp [hd])
      have he : e.1 ≠ c.1 := hn e (by simp)
      simp only [Memory.place]
      split
      · next hlt =>
        refine List.pairwise_cons.mpr ⟨fun d hd => ?_, h.1⟩
        rcases List.mem_cons.mp hd with rfl | hd
        · exact hlt
        · exact hlt.trans (h1 d hd)
      · refine List.pairwise_cons.mpr ⟨fun d hd => ?_, ih'⟩
        rcases Memory.mem_place.mp hd with rfl | hd
        · omega
        · exact h1 d hd
  · rcases Memory.mem_place.mp hd with rfl | hd
    · exact hc
    · exact h.2 d hd

theorem Memory.wf_write {m : Memory} (h : Memory.wf m) (a : Nat) (b : Byte) : Memory.wf (Memory.write m a b) := by
  unfold Memory.write
  split
  · exact Memory.wf_filter h _
  · next hb => exact Memory.wf_place (Memory.wf_filter h _) hb (by simp)

theorem Memory.wf_writeBytes (bs : List Byte) {m : Memory} (h : Memory.wf m) (a : Nat) :
    Memory.wf (Memory.writeBytes m a bs) := by
  induction bs generalizing m a with
  | nil => exact h
  | cons b bs ih => exact ih (Memory.wf_write h a b) _

theorem Memory.wf_clear {m : Memory} (h : Memory.wf m) (a n : Nat) : Memory.wf (Memory.clear m a n) :=
  Memory.wf_filter h _

/-! ### Which cells an operation can list -/

theorem Memory.mem_write {m : Memory} {a : Nat} {b : Byte} {c : Host.Cell} (h : c ∈ Memory.write m a b) :
    c.1 = a ∨ c ∈ m := by
  unfold Memory.write at h
  split at h
  · exact .inr (List.mem_of_mem_filter h)
  · rcases Memory.mem_place.mp h with rfl | h
    · exact .inl rfl
    · exact .inr (List.mem_of_mem_filter h)

theorem Memory.mem_writeBytes (bs : List Byte) {m : Memory} {a : Nat} {c : Host.Cell}
    (h : c ∈ Memory.writeBytes m a bs) : (a ≤ c.1 ∧ c.1 < a + bs.length) ∨ c ∈ m := by
  induction bs generalizing m a with
  | nil => exact .inr h
  | cons b bs ih =>
    rw [List.length_cons]
    rcases ih h with h | h
    · exact .inl (by omega)
    · rcases Memory.mem_write h with h | h
      · exact .inl (by omega)
      · exact .inr h

theorem Memory.mem_clear {m : Memory} {a n : Nat} {c : Host.Cell} (h : c ∈ Memory.clear m a n) : c ∈ m :=
  List.mem_of_mem_filter h

/-- A listed cell reads as what it holds, and not as `SENT`. -/
theorem Memory.read_of_mem {m : Memory} (h : Memory.wf m) {c : Host.Cell} (hc : c ∈ m) :
    Memory.read m c.1 = c.2 := by
  induction m with
  | nil => simp at hc
  | cons d m ih =>
    obtain ⟨h1, h2⟩ := List.pairwise_cons.mp h.1
    rw [Memory.read_cons]
    rcases List.mem_cons.mp hc with rfl | hc
    · simp
    · rw [if_neg (by have := h1 c hc; omega)]
      exact ih ⟨h2, fun e he => h.2 e (by simp [he])⟩ hc

/-- Two canonical memories that read alike everywhere are the same list. -/
theorem Memory.ext_of_read {m m' : Memory} (h : Memory.wf m) (h' : Memory.wf m')
    (hr : ∀ a, Memory.read m a = Memory.read m' a) : m = m' := by
  induction m generalizing m' with
  | nil =>
    cases m' with
    | nil => rfl
    | cons c m' => exact absurd ((hr c.1).symm.trans rfl) (by simpa [Memory.read_cons] using h'.2 c (by simp))
  | cons c m ih =>
    obtain ⟨h1, h2⟩ := List.pairwise_cons.mp h.1
    cases m' with
    | nil => exact absurd (hr c.1) (by simpa [Memory.read_cons] using h.2 c (by simp))
    | cons d m' =>
      obtain ⟨h1', h2'⟩ := List.pairwise_cons.mp h'.1
      have below : ∀ {n : Memory} {e : Host.Cell} {a : Nat}, (∀ f ∈ n, e.1 < f.1) → a ≤ e.1 →
          Memory.read n a = Config.sent := fun hn ha =>
        Memory.read_of_unlisted fun f hf => by have := hn f hf; omega
      have hcd : c.1 = d.1 := by
        rcases lt_trichotomy c.1 d.1 with hlt | heq | hgt
        · have := hr c.1
          rw [Memory.read_cons, if_pos rfl, Memory.read_cons, if_neg (by omega), below h1' hlt.le] at this
          exact absurd this (h.2 c (by simp))
        · exact heq
        · have := hr d.1
          rw [Memory.read_cons, if_neg (by omega), below h1 hgt.le, Memory.read_cons, if_pos rfl] at this
          exact absurd this.symm (h'.2 d (by simp))
      have hv : c.2 = d.2 := by simpa [Memory.read_cons, hcd] using hr c.1
      have htl : m = m' := by
        refine ih ⟨h2, fun e he => h.2 e (by simp [he])⟩ ⟨h2', fun e he => h'.2 e (by simp [he])⟩ fun a => ?_
        by_cases ha : a ≤ c.1
        · rw [below h1 ha, below h1' (hcd ▸ ha)]
        · simpa [Memory.read_cons, show c.1 ≠ a by omega, show d.1 ≠ a by omega] using hr a
      rw [htl, Prod.ext hcd hv]

/-! ### Space Q -/

/-- A byte of a slot after `MemFill(Q, i)`. -/
theorem read_memFillQ (p : Params) (m : Memory) (i x : Nat) :
    Memory.read (memFillQ p m i) x =
      if slotAddr i 0 ≤ x ∧ x < slotAddr i 0 + p.c then Config.sent else Memory.read m x :=
  Memory.read_clear ..

/-- A byte of a slot after `MemWrite(Q, i, n, v)`. -/
theorem read_memWriteQ (m : Memory) (i n : Nat) (v : List Byte) (x : Nat) :
    Memory.read (memWriteQ m i n v) x =
      if slotAddr i 0 ≤ x ∧ x < slotAddr i 0 + (v.take n).length then
        (v.take n).getD (x - slotAddr i 0) Config.sent else Memory.read m x :=
  Memory.read_writeBytes ..

/-- A byte of any address after every slot has been filled. -/
theorem read_memFillAllQ (p : Params) (m : Memory) (x : Nat) :
    Memory.read (memFillAllQ p m) x =
      if ∃ i < p.n, slotAddr i 0 ≤ x ∧ x < slotAddr i 0 + p.c then Config.sent else Memory.read m x := by
  have general : ∀ (l : List Nat) (m : Memory), Memory.read (l.foldl (memFillQ p) m) x =
      if ∃ i ∈ l, slotAddr i 0 ≤ x ∧ x < slotAddr i 0 + p.c then Config.sent else Memory.read m x := by
    intro l
    induction l with
    | nil => simp
    | cons i l ih =>
      intro m
      rw [List.foldl_cons, ih, read_memFillQ]
      by_cases h1 : slotAddr i 0 ≤ x ∧ x < slotAddr i 0 + p.c <;>
        by_cases h2 : ∃ j ∈ l, slotAddr j 0 ≤ x ∧ x < slotAddr j 0 + p.c <;> simp [h1, h2]
  simpa [memFillAllQ] using general (List.range p.n) m

theorem wf_memFillQ (p : Params) {m : Memory} (h : Memory.wf m) (i : Nat) : Memory.wf (memFillQ p m i) :=
  Memory.wf_clear h _ _

theorem wf_memWriteQ {m : Memory} (h : Memory.wf m) (i n : Nat) (v : List Byte) : Memory.wf (memWriteQ m i n v) :=
  Memory.wf_writeBytes _ h _

theorem mem_memFillAllQ (p : Params) {m : Memory} {c : Host.Cell} (h : c ∈ memFillAllQ p m) : c ∈ m := by
  have general : ∀ (l : List Nat) (m : Memory), c ∈ l.foldl (memFillQ p) m → c ∈ m := by
    intro l
    induction l with
    | nil => exact fun _ => id
    | cons i l ih => exact fun m hc => Memory.mem_clear (ih _ hc)
  exact general _ _ h

theorem wf_memFillAllQ (p : Params) {m : Memory} (h : Memory.wf m) : Memory.wf (memFillAllQ p m) := by
  have general : ∀ (l : List Nat) {m : Memory}, Memory.wf m → Memory.wf (l.foldl (memFillQ p) m) := by
    intro l
    induction l with
    | nil => exact id
    | cons i l ih => exact fun hm => ih (wf_memFillQ p hm i)
  exact general _ h

@[simp] theorem length_memReadQ (m : Memory) (i n : Nat) : (memReadQ m i n).length = n :=
  Memory.length_readBytes ..

/-- Two pairs `(i, j)` in range have the same address only if they are the same pair. -/
theorem slotAddr_inj {i j i' j' : Nat} (hj : j < 4096) (hj' : j' < 4096)
    (h : slotAddr i j = slotAddr i' j') : i = i' ∧ j = j' := by
  unfold slotAddr at h; omega

end Sys2Proof.Machine
end

