-- ==== Sys2Proof/Laws/State.lean ====
section
/-! SUPPORT. What each update of the state does to each field: one lemma per field per update. -/

namespace Sys2Proof.Machine

variable (s : State)

/-! ### `tickUp` -/

@[simp] theorem State.tickUp_cfg : s.tickUp.cfg = s.cfg := rfl
@[simp] theorem State.tickUp_tick : s.tickUp.tick = (s.tick + 1) % 2 ^ s.cfg.tw := rfl
@[simp] theorem State.tickUp_slot : s.tickUp.slot = s.slot := rfl
@[simp] theorem State.tickUp_head : s.tickUp.head = s.head := rfl
@[simp] theorem State.tickUp_tail : s.tickUp.tail = s.tail := rfl
@[simp] theorem State.tickUp_count : s.tickUp.count = s.count := rfl
@[simp] theorem State.tickUp_fbuf : s.tickUp.fbuf = s.fbuf := rfl
@[simp] theorem State.tickUp_cursor : s.tickUp.cursor = s.cursor := rfl
@[simp] theorem State.tickUp_inputs : s.tickUp.inputs = s.inputs := rfl
@[simp] theorem State.tickUp_aWdata : s.tickUp.aWdata = s.aWdata := rfl
@[simp] theorem State.tickUp_aOut : s.tickUp.aOut = s.aOut := rfl
@[simp] theorem State.tickUp_sOut : s.tickUp.sOut = s.sOut := rfl
@[simp] theorem State.tickUp_draws : s.tickUp.draws = s.draws := rfl

/-! ### `append` -/

@[simp] theorem State.append_cfg (rec : List Byte) (len : Nat) : (s.append rec len).cfg = s.cfg := rfl
@[simp] theorem State.append_tick (rec : List Byte) (len : Nat) : (s.append rec len).tick = s.tick := rfl
@[simp] theorem State.append_slot (rec : List Byte) (len : Nat) : (s.append rec len).slot = memWriteQ (memFillQ s.cfg s.slot s.tail) s.tail len rec := rfl
@[simp] theorem State.append_head (rec : List Byte) (len : Nat) : (s.append rec len).head = s.head := rfl
@[simp] theorem State.append_tail (rec : List Byte) (len : Nat) : (s.append rec len).tail = nextIndex s.cfg s.tail := rfl
@[simp] theorem State.append_count (rec : List Byte) (len : Nat) : (s.append rec len).count = s.count + 1 := rfl
@[simp] theorem State.append_fbuf (rec : List Byte) (len : Nat) : (s.append rec len).fbuf = s.fbuf := rfl
@[simp] theorem State.append_cursor (rec : List Byte) (len : Nat) : (s.append rec len).cursor = s.cursor := rfl
@[simp] theorem State.append_inputs (rec : List Byte) (len : Nat) : (s.append rec len).inputs = s.inputs := rfl
@[simp] theorem State.append_aWdata (rec : List Byte) (len : Nat) : (s.append rec len).aWdata = s.aWdata := rfl
@[simp] theorem State.append_aOut (rec : List Byte) (len : Nat) : (s.append rec len).aOut = s.aOut := rfl
@[simp] theorem State.append_sOut (rec : List Byte) (len : Nat) : (s.append rec len).sOut = s.sOut := rfl
@[simp] theorem State.append_draws (rec : List Byte) (len : Nat) : (s.append rec len).draws = s.draws := rfl

/-! ### `dropOldest` -/

@[simp] theorem State.dropOldest_cfg : s.dropOldest.cfg = s.cfg := rfl
@[simp] theorem State.dropOldest_tick : s.dropOldest.tick = s.tick := rfl
@[simp] theorem State.dropOldest_slot : s.dropOldest.slot = s.slot := rfl
@[simp] theorem State.dropOldest_head : s.dropOldest.head = nextIndex s.cfg s.head := rfl
@[simp] theorem State.dropOldest_tail : s.dropOldest.tail = s.tail := rfl
@[simp] theorem State.dropOldest_count : s.dropOldest.count = s.count - 1 := rfl
@[simp] theorem State.dropOldest_fbuf : s.dropOldest.fbuf = s.fbuf := rfl
@[simp] theorem State.dropOldest_cursor : s.dropOldest.cursor = s.cursor := rfl
@[simp] theorem State.dropOldest_inputs : s.dropOldest.inputs = s.inputs := rfl
@[simp] theorem State.dropOldest_aWdata : s.dropOldest.aWdata = s.aWdata := rfl
@[simp] theorem State.dropOldest_aOut : s.dropOldest.aOut = s.aOut := rfl
@[simp] theorem State.dropOldest_sOut : s.dropOldest.sOut = s.sOut := rfl
@[simp] theorem State.dropOldest_draws : s.dropOldest.draws = s.draws := rfl

/-! ### `clearQueue` -/

@[simp] theorem State.clearQueue_cfg : s.clearQueue.cfg = s.cfg := rfl
@[simp] theorem State.clearQueue_tick : s.clearQueue.tick = s.tick := rfl
@[simp] theorem State.clearQueue_slot : s.clearQueue.slot = memFillAllQ s.cfg s.slot := rfl
@[simp] theorem State.clearQueue_head : s.clearQueue.head = 0 := rfl
@[simp] theorem State.clearQueue_tail : s.clearQueue.tail = 0 := rfl
@[simp] theorem State.clearQueue_count : s.clearQueue.count = 0 := rfl
@[simp] theorem State.clearQueue_fbuf : s.clearQueue.fbuf = s.fbuf := rfl
@[simp] theorem State.clearQueue_cursor : s.clearQueue.cursor = s.cursor := rfl
@[simp] theorem State.clearQueue_inputs : s.clearQueue.inputs = s.inputs := rfl
@[simp] theorem State.clearQueue_aWdata : s.clearQueue.aWdata = s.aWdata := rfl
@[simp] theorem State.clearQueue_aOut : s.clearQueue.aOut = s.aOut := rfl
@[simp] theorem State.clearQueue_sOut : s.clearQueue.sOut = s.sOut := rfl
@[simp] theorem State.clearQueue_draws : s.clearQueue.draws = s.draws := rfl

/-! ### `clearSlot` -/

@[simp] theorem State.clearSlot_cfg (i : Nat) : (s.clearSlot i).cfg = s.cfg := rfl
@[simp] theorem State.clearSlot_tick (i : Nat) : (s.clearSlot i).tick = s.tick := rfl
@[simp] theorem State.clearSlot_slot (i : Nat) : (s.clearSlot i).slot = memFillQ s.cfg s.slot i := rfl
@[simp] theorem State.clearSlot_head (i : Nat) : (s.clearSlot i).head = s.head := rfl
@[simp] theorem State.clearSlot_tail (i : Nat) : (s.clearSlot i).tail = s.tail := rfl
@[simp] theorem State.clearSlot_count (i : Nat) : (s.clearSlot i).count = s.count := rfl
@[simp] theorem State.clearSlot_fbuf (i : Nat) : (s.clearSlot i).fbuf = s.fbuf := rfl
@[simp] theorem State.clearSlot_cursor (i : Nat) : (s.clearSlot i).cursor = s.cursor := rfl
@[simp] theorem State.clearSlot_inputs (i : Nat) : (s.clearSlot i).inputs = s.inputs := rfl
@[simp] theorem State.clearSlot_aWdata (i : Nat) : (s.clearSlot i).aWdata = s.aWdata := rfl
@[simp] theorem State.clearSlot_aOut (i : Nat) : (s.clearSlot i).aOut = s.aOut := rfl
@[simp] theorem State.clearSlot_sOut (i : Nat) : (s.clearSlot i).sOut = s.sOut := rfl
@[simp] theorem State.clearSlot_draws (i : Nat) : (s.clearSlot i).draws = s.draws := rfl

/-! ### `storeByte` -/

@[simp] theorem State.storeByte_cfg (b : Byte) : (s.storeByte b).cfg = s.cfg := rfl
@[simp] theorem State.storeByte_tick (b : Byte) : (s.storeByte b).tick = s.tick := rfl
@[simp] theorem State.storeByte_slot (b : Byte) : (s.storeByte b).slot = s.slot := rfl
@[simp] theorem State.storeByte_head (b : Byte) : (s.storeByte b).head = s.head := rfl
@[simp] theorem State.storeByte_tail (b : Byte) : (s.storeByte b).tail = s.tail := rfl
@[simp] theorem State.storeByte_count (b : Byte) : (s.storeByte b).count = s.count := rfl
@[simp] theorem State.storeByte_fbuf (b : Byte) : (s.storeByte b).fbuf = Memory.write s.fbuf s.cursor b := rfl
@[simp] theorem State.storeByte_cursor (b : Byte) : (s.storeByte b).cursor = s.cursor + 1 := rfl
@[simp] theorem State.storeByte_inputs (b : Byte) : (s.storeByte b).inputs = s.inputs := rfl
@[simp] theorem State.storeByte_aWdata (b : Byte) : (s.storeByte b).aWdata = s.aWdata := rfl
@[simp] theorem State.storeByte_aOut (b : Byte) : (s.storeByte b).aOut = s.aOut := rfl
@[simp] theorem State.storeByte_sOut (b : Byte) : (s.storeByte b).sOut = s.sOut := rfl
@[simp] theorem State.storeByte_draws (b : Byte) : (s.storeByte b).draws = s.draws := rfl

/-! ### `rewind` -/

@[simp] theorem State.rewind_cfg : s.rewind.cfg = s.cfg := rfl
@[simp] theorem State.rewind_tick : s.rewind.tick = s.tick := rfl
@[simp] theorem State.rewind_slot : s.rewind.slot = s.slot := rfl
@[simp] theorem State.rewind_head : s.rewind.head = s.head := rfl
@[simp] theorem State.rewind_tail : s.rewind.tail = s.tail := rfl
@[simp] theorem State.rewind_count : s.rewind.count = s.count := rfl
@[simp] theorem State.rewind_fbuf : s.rewind.fbuf = s.fbuf := rfl
@[simp] theorem State.rewind_cursor : s.rewind.cursor = 0 := rfl
@[simp] theorem State.rewind_inputs : s.rewind.inputs = s.inputs := rfl
@[simp] theorem State.rewind_aWdata : s.rewind.aWdata = s.aWdata := rfl
@[simp] theorem State.rewind_aOut : s.rewind.aOut = s.aOut := rfl
@[simp] theorem State.rewind_sOut : s.rewind.sOut = s.sOut := rfl
@[simp] theorem State.rewind_draws : s.rewind.draws = s.draws := rfl

/-! ### `answerA` -/

@[simp] theorem State.answerA_cfg (ok : Bool) : (s.answerA ok).cfg = s.cfg := rfl
@[simp] theorem State.answerA_tick (ok : Bool) : (s.answerA ok).tick = s.tick := rfl
@[simp] theorem State.answerA_slot (ok : Bool) : (s.answerA ok).slot = s.slot := rfl
@[simp] theorem State.answerA_head (ok : Bool) : (s.answerA ok).head = s.head := rfl
@[simp] theorem State.answerA_tail (ok : Bool) : (s.answerA ok).tail = s.tail := rfl
@[simp] theorem State.answerA_count (ok : Bool) : (s.answerA ok).count = s.count := rfl
@[simp] theorem State.answerA_fbuf (ok : Bool) : (s.answerA ok).fbuf = s.fbuf := rfl
@[simp] theorem State.answerA_cursor (ok : Bool) : (s.answerA ok).cursor = s.cursor := rfl
@[simp] theorem State.answerA_inputs (ok : Bool) : (s.answerA ok).inputs = s.inputs := rfl
@[simp] theorem State.answerA_aWdata (ok : Bool) : (s.answerA ok).aWdata = s.aWdata := rfl
@[simp] theorem State.answerA_aOut (ok : Bool) : (s.answerA ok).aOut = ok :: s.aOut := rfl
@[simp] theorem State.answerA_sOut (ok : Bool) : (s.answerA ok).sOut = s.sOut := rfl
@[simp] theorem State.answerA_draws (ok : Bool) : (s.answerA ok).draws = s.draws := rfl

/-! ### `answerS` -/

@[simp] theorem State.answerS_cfg (ok : Bool) (val : Option Nat) (data : List Byte) : (s.answerS ok val data).cfg = s.cfg := rfl
@[simp] theorem State.answerS_tick (ok : Bool) (val : Option Nat) (data : List Byte) : (s.answerS ok val data).tick = s.tick := rfl
@[simp] theorem State.answerS_slot (ok : Bool) (val : Option Nat) (data : List Byte) : (s.answerS ok val data).slot = s.slot := rfl
@[simp] theorem State.answerS_head (ok : Bool) (val : Option Nat) (data : List Byte) : (s.answerS ok val data).head = s.head := rfl
@[simp] theorem State.answerS_tail (ok : Bool) (val : Option Nat) (data : List Byte) : (s.answerS ok val data).tail = s.tail := rfl
@[simp] theorem State.answerS_count (ok : Bool) (val : Option Nat) (data : List Byte) : (s.answerS ok val data).count = s.count := rfl
@[simp] theorem State.answerS_fbuf (ok : Bool) (val : Option Nat) (data : List Byte) : (s.answerS ok val data).fbuf = s.fbuf := rfl
@[simp] theorem State.answerS_cursor (ok : Bool) (val : Option Nat) (data : List Byte) : (s.answerS ok val data).cursor = s.cursor := rfl
@[simp] theorem State.answerS_inputs (ok : Bool) (val : Option Nat) (data : List Byte) : (s.answerS ok val data).inputs = s.inputs := rfl
@[simp] theorem State.answerS_aWdata (ok : Bool) (val : Option Nat) (data : List Byte) : (s.answerS ok val data).aWdata = s.aWdata := rfl
@[simp] theorem State.answerS_aOut (ok : Bool) (val : Option Nat) (data : List Byte) : (s.answerS ok val data).aOut = s.aOut := rfl
@[simp] theorem State.answerS_sOut (ok : Bool) (val : Option Nat) (data : List Byte) : (s.answerS ok val data).sOut = ⟨ok, val.getD s.freeVal, data ++ s.freeLanes data.length⟩ :: s.sOut := rfl
@[simp] theorem State.answerS_draws (ok : Bool) (val : Option Nat) (data : List Byte) : (s.answerS ok val data).draws = s.draws + 1 := rfl

/-! ### `failA` -/

@[simp] theorem State.failA_cfg : s.failA.cfg = s.cfg := rfl
@[simp] theorem State.failA_tick : s.failA.tick = s.tick := rfl
@[simp] theorem State.failA_slot : s.failA.slot = s.slot := rfl
@[simp] theorem State.failA_head : s.failA.head = s.head := rfl
@[simp] theorem State.failA_tail : s.failA.tail = s.tail := rfl
@[simp] theorem State.failA_count : s.failA.count = s.count := rfl
@[simp] theorem State.failA_fbuf : s.failA.fbuf = s.fbuf := rfl
@[simp] theorem State.failA_cursor : s.failA.cursor = s.cursor := rfl
@[simp] theorem State.failA_inputs : s.failA.inputs = s.inputs := rfl
@[simp] theorem State.failA_aWdata : s.failA.aWdata = s.aWdata := rfl
@[simp] theorem State.failA_aOut : s.failA.aOut = false :: s.aOut := rfl
@[simp] theorem State.failA_sOut : s.failA.sOut = s.sOut := rfl
@[simp] theorem State.failA_draws : s.failA.draws = s.draws := rfl

/-! ### `failS` -/

@[simp] theorem State.failS_cfg : s.failS.cfg = s.cfg := rfl
@[simp] theorem State.failS_tick : s.failS.tick = s.tick := rfl
@[simp] theorem State.failS_slot : s.failS.slot = s.slot := rfl
@[simp] theorem State.failS_head : s.failS.head = s.head := rfl
@[simp] theorem State.failS_tail : s.failS.tail = s.tail := rfl
@[simp] theorem State.failS_count : s.failS.count = s.count := rfl
@[simp] theorem State.failS_fbuf : s.failS.fbuf = s.fbuf := rfl
@[simp] theorem State.failS_cursor : s.failS.cursor = s.cursor := rfl
@[simp] theorem State.failS_inputs : s.failS.inputs = s.inputs := rfl
@[simp] theorem State.failS_aWdata : s.failS.aWdata = s.aWdata := rfl
@[simp] theorem State.failS_aOut : s.failS.aOut = s.aOut := rfl
@[simp] theorem State.failS_sOut : s.failS.sOut = ⟨false, s.freeVal, s.freeLanes 0⟩ :: s.sOut := rfl
@[simp] theorem State.failS_draws : s.failS.draws = s.draws + 1 := rfl

/-! ### The last answer -/

@[simp] theorem State.lastVal_answerS (ok : Bool) (val : Option Nat) (data : List Byte) :
    (s.answerS ok val data).lastVal = some (val.getD s.freeVal) := rfl

end Sys2Proof.Machine
end

