-- ==== Sys2Proof/Laws/Ops.lean ====
section
/-! SUPPORT. One lemma per shared operation and per operation of the block that says everything it can do. -/

namespace Sys2Proof.Machine

/-! ### Shared operations -/

theorem onNext_eq_next {f : State → State} {o : Host.Outcome State Fault Refusal} {t : State} :
    onNext f o = .next t ↔ ∃ u, o = .next u ∧ t = f u := by
  cases o <;> simp [onNext, eq_comm]

theorem andThen_eq_next {σ τ : Type} {o : Host.Outcome σ Fault Refusal} {f : σ → Host.Outcome τ Fault Refusal}
    {x : τ} : andThen o f = .next x ↔ ∃ s, o = .next s ∧ f s = .next x := by
  cases o <;> simp [andThen]

@[simp] theorem andThen_next {σ τ : Type} (s : σ) (f : σ → Host.Outcome τ Fault Refusal) :
    andThen (.next s) f = f s := rfl

theorem queueAppend_eq_next {rec : List Byte} {len : Nat} {s t : State} :
    queueAppend rec len s = .next t ↔ s.tail < s.cfg.n ∧ t = s.append rec len := by
  unfold queueAppend; split <;> simp_all [eq_comm]

theorem pushFails_iff {s : State} {len : Nat} :
    s.pushFails len = true ↔ s.count = s.cfg.n ∨ s.cfg.c < len := by
  simp [State.pushFails, State.full]

theorem popFails_iff {s : State} {len : Nat} : s.popFails len = true ↔ s.count = 0 ∨ s.cfg.c < len := by
  simp [State.popFails, State.empty]

theorem length_freeLanes (s : State) (k : Nat) : (s.freeLanes k).length = s.cfg.c - k := by
  simp [State.freeLanes]

@[simp] theorem length_recordOf (p : Params) (w : Nat) : (recordOf p w).length = p.c := by simp [recordOf]

@[simp] theorem length_payload (s : State) : s.payload.length = s.cfg.c := length_recordOf ..

@[simp] theorem length_memReadF (s : State) (n : Nat) : (s.memReadF n).length = n := Memory.length_readBytes ..

/-- Every byte address of space Q after a push of `len <= |rec|` bytes: the copied bytes, then `SENT`, in
the slot at `tail`; the rest as before (R120). -/
theorem read_append (s : State) (rec : List Byte) (len a : Nat) :
    Memory.read (s.append rec len).slot a =
      if slotAddr s.tail 0 ≤ a ∧ a < slotAddr s.tail 0 + (rec.take len).length then
        (rec.take len).getD (a - slotAddr s.tail 0) Config.sent
      else if slotAddr s.tail 0 ≤ a ∧ a < slotAddr s.tail 0 + s.cfg.c then Config.sent
      else Memory.read s.slot a := by
  rw [State.append_slot, read_memWriteQ, read_memFillQ]

/-! ### The operations, each with everything it can answer -/

theorem exec_tick_eq {s t : State} : exec .tick s = .next t ↔ t = s.tickUp.answerA true := by
  simp [exec, execTick, eq_comm]

theorem exec_rdtick_eq {s t : State} : exec .rdtick s = .next t ↔ t = s.answerS true (some s.tick) [] := by
  simp [exec, execRdtick, eq_comm]

theorem exec_count_eq {s t : State} : exec .count s = .next t ↔ t = s.answerS true (some s.count) [] := by
  simp [exec, execCount, eq_comm]

theorem exec_full_eq {s t : State} :
    exec .full s = .next t ↔ t = s.answerS true (some (bitVal s.full)) [] := by
  simp [exec, execFull, eq_comm]

theorem exec_empty_eq {s t : State} :
    exec .empty s = .next t ↔ t = s.answerS true (some (bitVal s.empty)) [] := by
  simp [exec, execEmpty, eq_comm]

theorem exec_rstall_eq {s t : State} : exec .rstall s = .next t ↔ t = s.clearQueue.answerS true none [] := by
  simp [exec, execRstall, eq_comm]

theorem exec_rstitem_eq {s t : State} {i : Nat} :
    exec (.rstitem i) s = .next t ↔
      (s.cfg.n ≤ i ∧ t = s.failS) ∨ (i < s.cfg.n ∧ t = (s.clearSlot i).answerS true none []) := by
  show execRstitem i s = .next t ↔ _
  unfold execRstitem
  split
  · next h => simp [h, Nat.not_lt.mpr h, eq_comm]
  · next h => simp [h, Nat.not_le.mp h, eq_comm]

theorem exec_push_eq {s t : State} {len : Nat} :
    exec (.push len) s = .next t ↔
      ((s.count = s.cfg.n ∨ s.cfg.c < len) ∧ t = s.failA) ∨
      (s.count ≠ s.cfg.n ∧ len ≤ s.cfg.c ∧ s.tail < s.cfg.n ∧ t = (s.append s.payload len).answerA true) := by
  show execPush len s = .next t ↔ _
  unfold execPush
  split
  · next h =>
    rw [pushFails_iff] at h
    simp only [Host.Outcome.next.injEq, h, true_and]
    constructor
    · exact fun h' => .inl h'.symm
    · rintro (rfl | ⟨h1, h2, -⟩)
      · rfl
      · omega
  · next h =>
    rw [pushFails_iff] at h
    simp only [onNext_eq_next, queueAppend_eq_next, h, false_and, false_or]
    constructor
    · rintro ⟨u, ⟨h1, rfl⟩, rfl⟩; exact ⟨by omega, by omega, h1, rfl⟩
    · rintro ⟨-, -, h1, rfl⟩; exact ⟨_, ⟨h1, rfl⟩, rfl⟩

theorem exec_pop_eq {s t : State} {len : Nat} :
    exec (.pop len) s = .next t ↔
      ((s.count = 0 ∨ s.cfg.c < len) ∧ t = s.failS) ∨
      (s.count ≠ 0 ∧ len ≤ s.cfg.c ∧ s.head < s.cfg.n ∧
        t = s.dropOldest.answerS true none (memReadQ s.slot s.head len)) := by
  show execPop len s = .next t ↔ _
  unfold execPop
  split
  · next h =>
    rw [popFails_iff] at h
    simp only [Host.Outcome.next.injEq, h, true_and]
    constructor
    · exact fun h' => .inl h'.symm
    · rintro (rfl | ⟨h1, h2, -⟩)
      · rfl
      · omega
  · next h =>
    rw [popFails_iff] at h
    simp only [h, false_and, false_or]
    split
    · next hh =>
      simp only [Host.Outcome.next.injEq, hh, true_and]
      constructor
      · exact fun h' => ⟨by omega, by omega, h'.symm⟩
      · exact fun h' => h'.2.2.symm
    · next hh => simp [hh]

theorem exec_rxb_eq {s t : State} {b : Byte} :
    exec (.rxb b) s = .next t ↔
      (s.rxOutcome b = .overflow ∧ t = s.rewind.answerA true) ∨
      (s.rxOutcome b = .ignore ∧ t = s.answerA true) ∨
      (s.rxOutcome b = .pushed ∧ s.tail < s.cfg.n ∧
        t = (s.append (s.memReadF s.cursor) s.cursor).rewind.answerA true) ∨
      (s.rxOutcome b = .dropped ∧ t = s.rewind.answerA true) ∨
      (s.rxOutcome b = .store ∧ t = (s.storeByte b).answerA true) := by
  show execRxb b s = .next t ↔ _
  unfold execRxb
  split <;> rename_i h <;> simp only [h, reduceCtorEq, false_and, true_and, false_or, or_false,
    Host.Outcome.next.injEq, onNext_eq_next, queueAppend_eq_next]
  · exact eq_comm
  · exact eq_comm
  · constructor
    · rintro ⟨u, ⟨h1, rfl⟩, rfl⟩; exact ⟨h1, rfl⟩
    · rintro ⟨h1, rfl⟩; exact ⟨_, ⟨h1, rfl⟩, rfl⟩
  · exact eq_comm
  · exact eq_comm

/-- The conditions of the five outcomes (R141). -/
theorem rxOutcome_eq {s : State} {b : Byte} {o : RxOutcome} :
    s.rxOutcome b = o ↔
      match o with
      | .overflow => s.cfg.c ≤ s.cursor
      | .ignore => s.cursor < s.cfg.c ∧ b = Config.cr
      | .pushed => s.cursor < s.cfg.c ∧ b = Config.lf ∧ s.count < s.cfg.n
      | .dropped => s.cursor < s.cfg.c ∧ b = Config.lf ∧ s.cfg.n ≤ s.count
      | .store => s.cursor < s.cfg.c ∧ b ≠ Config.cr ∧ b ≠ Config.lf := by
  have hne : Config.lf ≠ Config.cr := by decide
  unfold State.rxOutcome
  by_cases h1 : s.cfg.c ≤ s.cursor
  · cases o <;> simp [h1, Nat.not_lt.mpr h1]
  · by_cases h2 : b = Config.cr
    · subst h2
      cases o <;> simp [h1, Nat.not_le.mp h1, Ne.symm hne]
    · by_cases h3 : b = Config.lf
      · subst h3
        by_cases h4 : s.count < s.cfg.n <;>
          cases o <;> simp [h1, Nat.not_le.mp h1, hne, h4, Nat.not_lt.mp, Nat.not_le.mpr]
      · cases o <;> simp [h1, Nat.not_le.mp h1, h2, h3]

/-! ### The requests to come -/

theorem nextRequest_sync {s : State} {w : Word} {rest : List Input} (h : s.inputs = .sync w :: rest) :
    s.nextRequest = some (.S, w, { s with inputs := rest }) := by
  simp [State.nextRequest, h]

theorem nextRequest_async_last {s : State} {r : ARequest} {rest : List Input} (h : s.inputs = .async r [] :: rest) :
    s.nextRequest = some (.A, r.cmd, { s with inputs := rest, aWdata := r.wdata }) := by
  simp [State.nextRequest, h]

theorem nextRequest_async_more {s : State} {r r' : ARequest} {more : List ARequest} {rest : List Input}
    (h : s.inputs = .async r (r' :: more) :: rest) :
    s.nextRequest = some (.A, r.cmd, { s with inputs := .async r' more :: rest, aWdata := r.wdata }) := by
  simp [State.nextRequest, h]

theorem nextRequest_nothing {s : State} (h : s.inputs = []) : s.nextRequest = none := by
  simp [State.nextRequest, h]

/-- A step performs the next request's operation (R61, R88). -/
theorem step_of_nextRequest {s t : State} {p : Port} {w : Word} {i : Instr}
    (h : s.nextRequest = some (p, w, t)) (hd : decode p w = .ok i) : step s = exec i t := by
  simp [step, h, hd]

/-- A run goes on from the state its first step gives. -/
theorem runSteps_of_step {s t : State} (n : Nat) (h : step s = .next t) : runSteps (n + 1) s = runSteps n t := by
  simp [runSteps, h]

/-- A run that answers a next state passes through the state after its first step. -/
theorem runSteps_succ_eq_next {s t : State} {n : Nat} :
    runSteps (n + 1) s = .next t ↔ ∃ u, step s = .next u ∧ runSteps n u = .next t := by
  cases h : step s <;> simp [runSteps, h]

/-- A sequence goes on from the state its first operation gives. -/
theorem execAll_cons {i : Instr} {is : List Instr} {s t : State} (h : exec i s = .next t) :
    execAll (i :: is) s = execAll is t := by
  simp [execAll, h]

/-- A sequence that answers a next state passes through a state after its first operation. -/
theorem execAll_cons_eq_next {i : Instr} {is : List Instr} {s t : State} :
    execAll (i :: is) s = .next t ↔ ∃ u, exec i s = .next u ∧ execAll is u = .next t := by
  cases h : exec i s <;> simp [execAll, h]

@[simp] theorem produce_nil (s : State) : produce [] s = .next s := rfl

theorem produce_cons_eq_next {i : Instr} {w : Nat} {ops : List (Instr × Nat)} {s t : State} :
    produce ((i, w) :: ops) s = .next t ↔ ∃ u, exec i { s with aWdata := w } = .next u ∧ produce ops u = .next t :=
  andThen_eq_next

theorem execAll_append {is js : List Instr} {s t : State} (h : execAll is s = .next t) :
    execAll (is ++ js) s = execAll js t := by
  induction is generalizing s with
  | nil => simp only [execAll, Host.Outcome.next.injEq] at h; rw [h]; rfl
  | cons i is ih =>
    obtain ⟨u, hu, h'⟩ := execAll_cons_eq_next.mp h
    rw [List.cons_append, execAll_cons hu, ih h']

/-! ### `DRAIN` -/

/-- `DRAIN` with no further round: one `COUNT`. -/
theorem drain_nil (s : State) :
    drain [] s = .next (s.answerS true (some s.count) [], s.count == 0) := by
  simp [drain, exec_count_eq.mpr rfl]

/-- `DRAIN` on an empty queue stops at once. -/
theorem drain_of_empty {s : State} (h : s.count = 0) (rounds : List DrainRound) :
    drain rounds s = .next (s.answerS true (some s.count) [], true) := by
  cases rounds <;> simp [drain, exec_count_eq.mpr rfl, h]

/-- One round of `DRAIN` on a queue that holds a record. -/
theorem drain_cons_of_nonempty {s : State} (h : s.count ≠ 0) (r : DrainRound) (rounds : List DrainRound) :
    drain (r :: rounds) s =
      andThen (produce r.1 (s.answerS true (some s.count) [])) fun u =>
        andThen (exec (.pop u.cfg.c) u) fun v => andThen (produce r.2 v) fun x => drain rounds x := by
  rw [show drain (r :: rounds) s = _ from drain.eq_2 ..]
  simp [exec_count_eq.mpr rfl, h]

end Sys2Proof.Machine
end

