-- ==== Sys2Proof/Laws/PerInstr.lean ====
section
/-! SUPPORT. The family of statements made of every operation as syntax: bit 15 of its word names its port. -/

namespace Sys2Proof.Laws.EncodedPortBit

/-- Bit 15 of an operation's word is 1 exactly when it belongs to the S-port (R83). -/
def Statement (i : Instr) : Prop := portOf i.encode = i.port

theorem portOf_makeWord (op : BitVec 4) (arg : BitVec 12) :
    portOf (makeWord op arg) = if op.msb then .S else .A := by
  have h : (makeWord op arg).msb = op.msb := by
    unfold makeWord; rw [BitVec.msb_append]; simp
  rw [portOf, h]

theorem tick : Statement .tick := portOf_makeWord ..
theorem rxb (b : Byte) : Statement (.rxb b) := portOf_makeWord ..
theorem push (len : Nat) : Statement (.push len) := portOf_makeWord ..
theorem pop (len : Nat) : Statement (.pop len) := portOf_makeWord ..
theorem count : Statement .count := portOf_makeWord ..
theorem full : Statement .full := portOf_makeWord ..
theorem empty : Statement .empty := portOf_makeWord ..
theorem rstall : Statement .rstall := portOf_makeWord ..
theorem rstitem (i : Nat) : Statement (.rstitem i) := portOf_makeWord ..
theorem rdtick : Statement .rdtick := portOf_makeWord ..

end Sys2Proof.Laws.EncodedPortBit
end

