-- ==== Sys2Proof/Laws/Queue.lean ====
section
/-! SUPPORT. What the shared operations of the queue do to each slot's bytes, to each record and to the queue's
content (R128), and the arithmetic of its indices (R57). -/

namespace Sys2Proof.Machine

/-! ### Indices -/

/-- The index `k` places on from `h`, without the remainder (R57). -/
theorem index_add {n h k : Nat} (hh : h < n) (hk : k ≤ n) :
    (h + k) % n = if h + k < n then h + k else h + k - n := by
  split
  · exact Nat.mod_eq_of_lt ‹_›
  · rw [Nat.mod_eq_sub_mod (by omega), Nat.mod_eq_of_lt (by omega)]

/-- Live slots lie at different indices, and none of them at `tail` while the queue is not full. -/
theorem index_ne {n h k m : Nat} (hh : h < n) (hk : k < m) (hm : m < n) : (h + k) % n ≠ (h + m) % n := by
  rw [index_add hh (by omega), index_add hh (by omega)]
  split <;> split <;> omega

theorem nextIndex_lt {p : Params} (h : 0 < p.n) (i : Nat) : nextIndex p i < p.n := Nat.mod_lt _ h

/-! ### Bytes and records -/

/-- A byte of a slot after a push of at most `C` bytes (R120). -/
theorem slotByte_append (s : State) {rec : List Byte} {len : Nat} (hc : s.cfg.c ≤ 4095)
    (hl : (rec.take len).length ≤ s.cfg.c) (i : Nat) {j : Nat} (hj : j < 4096) :
    (s.append rec len).slotByte i j =
      if i = s.tail ∧ j < s.cfg.c then (rec.take len).getD j Config.sent else s.slotByte i j := by
  unfold State.slotByte
  rw [read_append]
  unfold slotAddr
  generalize (rec.take len) = v at hl ⊢
  by_cases h : i = s.tail ∧ j < s.cfg.c
  · obtain ⟨rfl, h⟩ := h
    rw [show 4096 * s.tail + j - (4096 * s.tail + 0) = j by omega]
    by_cases hv : j < v.length
    · rw [if_pos (by omega), if_pos (by simp [h])]
    · rw [if_neg (by omega), if_pos (by omega), if_pos (by simp [h]), List.getD_eq_default _ _ (by omega)]
  · rw [if_neg h, if_neg (by omega), if_neg (by omega)]

/-- A byte of a slot after `MemFill(Q, i)` (R127). -/
theorem slotByte_clearSlot (s : State) (hc : s.cfg.c ≤ 4095) (k i : Nat) {j : Nat} (hj : j < 4096) :
    (s.clearSlot k).slotByte i j = if i = k ∧ j < s.cfg.c then Config.sent else s.slotByte i j := by
  unfold State.slotByte
  rw [State.clearSlot_slot, read_memFillQ]
  unfold slotAddr
  by_cases h : i = k ∧ j < s.cfg.c
  · rw [if_pos h, if_pos (by omega)]
  · rw [if_neg h, if_neg (by omega)]

@[simp] theorem length_record (s : State) (i : Nat) : (s.record i).length = s.cfg.c := length_memReadQ ..

theorem record_eq (s : State) (i : Nat) : s.record i = (List.range s.cfg.c).map (s.slotByte i) := by
  unfold State.record memReadQ Memory.readBytes State.slotByte slotAddr
  simp

/-- A record is its bytes. -/
theorem record_congr {s t : State} {i j : Nat} (hc : t.cfg.c = s.cfg.c)
    (h : ∀ k, k < s.cfg.c → t.slotByte j k = s.slotByte i k) : t.record j = s.record i := by
  rw [record_eq, record_eq, hc]
  exact List.map_congr_left fun k hk => h k (List.mem_range.mp hk)

theorem length_pad {p : Params} {rec : List Byte} {len : Nat} (hl : (rec.take len).length ≤ p.c) :
    (pad p rec len).length = p.c := by
  simp only [pad, List.length_append, List.length_replicate]; omega

/-- The record in the slot a push writes (R120, R128). -/
theorem record_append_tail (s : State) {rec : List Byte} {len : Nat} (hc : s.cfg.c ≤ 4095)
    (hl : (rec.take len).length ≤ s.cfg.c) : (s.append rec len).record s.tail = pad s.cfg rec len := by
  refine List.ext_getElem (by simp [length_pad hl]) fun k h1 h2 => ?_
  have hk : k < s.cfg.c := by simpa using h1
  simp only [record_eq, List.getElem_map, List.getElem_range]
  rw [slotByte_append s hc hl _ (by omega), if_pos ⟨rfl, hk⟩]
  simp only [pad]
  by_cases hv : k < (rec.take len).length
  · rw [List.getElem_append_left hv, List.getD_eq_getElem _ _ hv]
  · rw [List.getElem_append_right (by omega), List.getD_eq_default _ _ (by omega), List.getElem_replicate]

/-- The records in the other slots after a push. -/
theorem record_append_other (s : State) {rec : List Byte} {len : Nat} (hc : s.cfg.c ≤ 4095)
    (hl : (rec.take len).length ≤ s.cfg.c) {i : Nat} (hi : i ≠ s.tail) :
    (s.append rec len).record i = s.record i :=
  record_congr rfl fun k hk => by rw [slotByte_append s hc hl _ (by omega), if_neg fun h => hi h.1]

/-- Every record after `RSTITEM k` (R127). -/
theorem record_clearSlot (s : State) (hc : s.cfg.c ≤ 4095) (k i : Nat) :
    (s.clearSlot k).record i = if i = k then emptyRecord s.cfg else s.record i := by
  split
  · next h =>
    refine List.ext_getElem (by simp [emptyRecord]) fun j h1 h2 => ?_
    have hj : j < s.cfg.c := by simpa using h1
    simp only [record_eq, List.getElem_map, List.getElem_range, emptyRecord, List.getElem_replicate]
    rw [slotByte_clearSlot s hc _ _ (by omega), if_pos ⟨h, hj⟩]
  · next h =>
    exact record_congr rfl fun j hj => by
      rw [slotByte_clearSlot s hc _ _ (by omega), if_neg fun h' => h h'.1]

/-! ### The queue's content -/

/-- The content depends on `slot`, `head`, `count` and the parameters alone. -/
theorem live_congr {s t : State} (hc : t.cfg = s.cfg) (hs : t.slot = s.slot) (hh : t.head = s.head)
    (hn : t.count = s.count) : t.live = s.live := by
  simp only [State.live, State.record, State.liveIndex, hc, hs, hh, hn]

@[simp] theorem length_live (s : State) : s.live.length = s.count := by simp [State.live]

/-- A push past its tests appends the padded record (R128). -/
theorem live_append {s : State} (hi : s.Inv) (hn : s.count < s.cfg.n) {rec : List Byte} {len : Nat}
    (hl : (rec.take len).length ≤ s.cfg.c) : (s.append rec len).live = s.live ++ [pad s.cfg rec len] := by
  obtain ⟨⟨-, -, -, hc, -⟩, -, hh, -, -, ht, -⟩ := hi
  simp only [State.live, State.append_count, List.range_succ, List.map_append, List.map_cons, List.map_nil]
  congr 1
  · refine List.map_congr_left fun k hk => ?_
    have hk : k < s.count := List.mem_range.mp hk
    exact record_append_other s hc hl (by rw [ht]; exact index_ne hh hk hn)
  · rw [← record_append_tail s hc hl, ht]; rfl

/-- A pop past its tests removes the oldest record (R128). -/
theorem live_dropOldest {s : State} (hi : s.Inv) (hn : s.count ≠ 0) :
    s.live = s.record s.head :: s.dropOldest.live := by
  obtain ⟨m, hm⟩ : ∃ m, s.count = m + 1 := ⟨s.count - 1, by omega⟩
  have h0 : s.liveIndex 0 = s.head := Nat.mod_eq_of_lt hi.2.2.1
  simp only [State.live, State.dropOldest_count, hm, List.range_succ_eq_map, List.map_cons, h0, List.map_map,
    Nat.add_sub_cancel]
  congr 1
  refine List.map_congr_left fun k _ => ?_
  show s.record ((s.head + (k + 1)) % s.cfg.n) = s.record (((s.head + 1) % s.cfg.n + k) % s.cfg.n)
  rw [Nat.mod_add_mod, show s.head + (k + 1) = s.head + 1 + k by omega]

/-- The content after `RSTITEM i` past its test (R128). -/
theorem live_clearSlot (s : State) (hc : s.cfg.c ≤ 4095) (i : Nat) :
    (s.clearSlot i).live = (List.range s.count).map fun k =>
      if s.liveIndex k = i then emptyRecord s.cfg else s.record (s.liveIndex k) := by
  refine List.map_congr_left fun k _ => ?_
  exact record_clearSlot s hc i _

/-! ### Which operations push -/

@[simp] theorem noPush_nil (s : State) : NoPush [] s := trivial

theorem noPush_cons {i : Instr} {is : List Instr} {s : State} :
    NoPush (i :: is) s ↔ ¬ s.Pushes i ∧ ∀ t, exec i s = .next t → NoPush is t := Iff.rfl

/-- Only a push that succeeds adds to the occupancy (R26). -/
theorem count_le_of_not_pushes {i : Instr} {s t : State} (hp : ¬ s.Pushes i) (h : exec i s = .next t) :
    t.count ≤ s.count := by
  cases i with
  | tick => rw [exec_tick_eq] at h; subst h; simp
  | rxb b =>
    rw [exec_rxb_eq] at h
    rcases h with ⟨-, rfl⟩ | ⟨-, rfl⟩ | ⟨ho, -⟩ | ⟨-, rfl⟩ | ⟨-, rfl⟩
    case inr.inr.inl =>
      obtain ⟨h1, rfl, h2⟩ := rxOutcome_eq.mp ho
      exact absurd (.inr ⟨rfl, h1, h2⟩) hp
    all_goals simp
  | push len =>
    rw [exec_push_eq] at h
    rcases h with ⟨-, rfl⟩ | ⟨h1, h2, -⟩
    · simp
    · exact absurd (.inl ⟨len, rfl, h1, h2⟩) hp
  | pop len => rw [exec_pop_eq] at h; rcases h with ⟨-, rfl⟩ | ⟨-, -, -, rfl⟩ <;> simp
  | count => rw [exec_count_eq] at h; subst h; simp
  | full => rw [exec_full_eq] at h; subst h; simp
  | empty => rw [exec_empty_eq] at h; subst h; simp
  | rstall => rw [exec_rstall_eq] at h; subst h; simp
  | rstitem k => rw [exec_rstitem_eq] at h; rcases h with ⟨-, rfl⟩ | ⟨-, rfl⟩ <;> simp
  | rdtick => rw [exec_rdtick_eq] at h; subst h; simp

end Sys2Proof.Machine
end

