-- ==== Sys2Proof/Tests/Slice0.lean ====
section
/-! SUPPORT. The model's own tests: ill-formed terms the checks refuse, words written out from the spec's
encodings, single steps with the results spec/95_test_vectors.md states, and a witness for every
statement of Certificates/Slice0/Obligations.lean that has hypotheses. -/

namespace Sys2Proof.Tests

open Sys2Proof.Machine

/-! ## Ill-formed terms -/

theorem test_wellFormed_refuses_long_push : (Instr.push 4096).wellFormed = false := by decide
theorem test_wellFormed_refuses_long_pop : (Instr.pop 4096).wellFormed = false := by decide
theorem test_wellFormed_refuses_far_item : (Instr.rstitem 4096).wellFormed = false := by decide
theorem test_valid_refuses_each_bound :
    ¬ (Params.mk 0 8 8).Valid ∧ ¬ (Params.mk 4097 8 8).Valid ∧ ¬ (Params.mk 4 0 8).Valid ∧
    ¬ (Params.mk 4 4096 8).Valid ∧ ¬ (Params.mk 4 8 0).Valid := by decide
theorem test_memory_wf_refuses_disorder_and_sentinels :
    ¬ Memory.wf [(2, 1), (1, 1)] ∧ ¬ Memory.wf [(1, 1), (1, 2)] ∧ ¬ Memory.wf [(1, 0)] := by decide

/-! ## Words, bit by bit from R82 and R83 -/

theorem test_word_tick : decode .A 0b0001_000000000000 = .ok .tick := by decide
theorem test_word_rdtick : decode .S 0b1110_000000000000 = .ok .rdtick := by decide
theorem test_word_rxb : decode .A 0b0010_0000_01110010 = .ok (.rxb 0x72) := by decide
theorem test_word_push : decode .A 0b0011_000000001001 = .ok (.push 9) := by decide
theorem test_word_pop : decode .S 0b1000_100000000001 = .ok (.pop 2049) := by decide
theorem test_word_count : decode .S 0b1001_000000000000 = .ok .count := by decide
theorem test_word_full : decode .S 0b1010_000000000000 = .ok .full := by decide
theorem test_word_empty : decode .S 0b1011_000000000000 = .ok .empty := by decide
theorem test_word_rstall : decode .S 0b1100_000000000000 = .ok .rstall := by decide
theorem test_word_rstitem : decode .S 0b1101_000000000010 = .ok (.rstitem 2) := by decide
/-- The illegal words of section 2.1, each with its reason. -/
theorem test_illegal_words :
    decode .A 0x0000 = .error .reservedCode ∧ decode .S 0xFFFF = .error .reservedCode ∧
    decode .A 0x7000 = .error .reservedCode ∧ decode .A 0x1001 = .error .nonzeroArg ∧
    decode .A 0x2172 = .error .nonzeroArg ∧ decode .S 0xA800 = .error .nonzeroArg ∧
    decode .A 0x8008 = .error .wrongPort ∧ decode .S 0x2072 = .error .wrongPort := by decide
theorem test_encode_words :
    (Instr.rxb 0x0A).encode = 0x200A ∧ (Instr.push 3).encode = 0x3003 ∧ (Instr.pop 8).encode = 0x8008 ∧
    (Instr.rstitem 2).encode = 0xD002 ∧ Instr.rdtick.encode = 0xE000 := by decide
theorem test_table_words :
    decodeTableWord 16 0x1000 = some .tick ∧ decodeTableWord 16 0x2041 = some (.rxb 0x41) ∧
    decodeTableWord 16 0xE000 = some .rdtick ∧ decodeTableWord 16 0x4000 = none := by decide

/-! ## Single steps, in the test configuration `T` unless shown -/

/-- The next state, if there is one. -/
def after : Host.Outcome State Fault Refusal → Option State
  | .next s => some s
  | .fault _ => none
  | .refused _ => none

/-- `head tail count` of section 2.3. -/
def queue (s : State) : Nat × Nat × Nat := (s.head, s.tail, s.count)

/-- A state of section 2.3: the bytes of space Q, then `head tail count`. -/
def atQueue (slot : Memory) (head tail count : Nat) : State :=
  { State.reset with slot := slot, head := head, tail := tail, count := count }

/-- The record `72 72 31 00 ...` in slot 0, `0 1 1`. -/
def oneLine : State := atQueue [(0, 0x72), (1, 0x72), (2, 0x31)] 0 1 1

/-- A full queue of one-byte records, `0 0 4` (S1). -/
def fullQueue : State := atQueue [(0, 0x61), (4096, 0x62), (8192, 0x63), (12288, 0x64)] 0 0 4

/-- The framer with `72 72 31` accumulated, `3 / 0 0 0`. -/
def threeBytes : State := { State.reset with fbuf := [(0, 0x72), (1, 0x72), (2, 0x31)], cursor := 3 }

/-- The framer at `cursor = C`. -/
def atCapacity : State := { State.reset with cursor := 8 }

/-- T3, T10. -/
theorem test_tick_wraps :
    (after (exec .tick { State.reset with tick := 0xFF })).map State.tick = some 0 ∧
    (after (exec .tick { State.reset with cfg := ⟨4, 8, 32⟩, tick := 5 })).map State.tick = some 6 ∧
    (after (exec .tick { State.reset with cfg := ⟨4, 8, 32⟩, tick := 0xFFFFFFFF })).map State.tick = some 0 := by
  decide
/-- T4. -/
theorem test_rdtick_reads :
    (after (exec .rdtick { State.reset with tick := 0x2A })).map (fun t => (t.tick, t.sOut.map SAnswer.val)) =
      some (0x2A, [0x2A]) := by decide
/-- Q1 with the lanes of section 2.1, Q8. -/
theorem test_push_stores_and_wraps :
    (after (exec (.push 3) { State.reset with aWdata := 0x317272 })).map
      (fun t => (queue t, t.record 0, t.aOut)) =
      some ((0, 1, 1), [0x72, 0x72, 0x31, 0, 0, 0, 0, 0], [true]) ∧
    (after (exec (.push 1) { atQueue [] 3 3 0 with aWdata := 0x7A })).map queue = some (3, 0, 1) := by decide
/-- Q4, Q5, Q7, Q9. -/
theorem test_push_fails_and_clears :
    (after (exec (.push 9) State.reset)).map (fun t => (queue t, t.aOut)) = some ((0, 0, 0), [false]) ∧
    (after (exec (.push 1) { fullQueue with aWdata := 0x65 })).map (fun t => (queue t, t.record 0)) =
      some ((0, 0, 4), [0x61, 0, 0, 0, 0, 0, 0, 0]) ∧
    (after (exec (.push 2) { atQueue [(4096, 0x41), (4099, 0x44)] 1 1 0 with aWdata := 0x64637978 })).map
      (fun t => t.record 1) = some [0x78, 0x79, 0, 0, 0, 0, 0, 0] := by decide
/-- Q11. -/
theorem test_pop_answers_the_oldest :
    (after (exec (.pop 8) oneLine)).map (fun t => (queue t, t.record 0, t.sOut.map (fun a => (a.ok, a.data)))) =
      some ((1, 1, 0), [0x72, 0x72, 0x31, 0, 0, 0, 0, 0], [(true, [0x72, 0x72, 0x31, 0, 0, 0, 0, 0])]) := by decide
/-- Q12, Q13, Q15, Q16. -/
theorem test_pop_fails_truncates_and_wraps :
    (after (exec (.pop 8) (atQueue [] 2 2 0))).map (fun t => (queue t, t.sOut.map SAnswer.ok)) =
      some ((2, 2, 0), [false]) ∧
    (after (exec (.pop 9) oneLine)).map (fun t => (queue t, t.sOut.map SAnswer.ok)) = some ((0, 1, 1), [false]) ∧
    (after (exec (.pop 2) oneLine)).map (fun t => (queue t, t.sOut.map (fun a => a.data.take 2))) =
      some ((1, 1, 0), [[0x72, 0x72]]) ∧
    (after (exec (.pop 8) (atQueue [(0, 0x66), (12288, 0x63)] 3 1 2))).map
      (fun t => (queue t, t.sOut.map SAnswer.data)) = some ((0, 1, 1), [[0x63, 0, 0, 0, 0, 0, 0, 0]]) := by decide
/-- Q17 to Q19. -/
theorem test_count_answers :
    (after (exec .count (atQueue [] 1 3 2))).map (fun t => t.sOut.map SAnswer.val) = some [2] := by decide
theorem test_full_answers :
    (after (exec .full fullQueue)).map (fun t => t.sOut.map SAnswer.val) = some [1] ∧
    (after (exec .full oneLine)).map (fun t => t.sOut.map SAnswer.val) = some [0] := by decide
theorem test_empty_answers :
    (after (exec .empty State.reset)).map (fun t => t.sOut.map SAnswer.val) = some [1] ∧
    (after (exec .empty oneLine)).map (fun t => t.sOut.map SAnswer.val) = some [0] := by decide
/-- Q20, with a line half accumulated. -/
theorem test_rstall_clears_the_queue_alone :
    (after (exec .rstall { threeBytes with
      slot := [(0, 0x66), (4103, 1), (12288, 0x63)], head := 3, tail := 1, count := 2, tick := 7 })).map
      (fun t => (queue t, t.slot, t.memReadF 3, t.cursor, t.tick)) =
      some ((0, 0, 0), [], [0x72, 0x72, 0x31], 3, 7) := by decide
/-- Q21. -/
theorem test_rstitem_clears_one_slot :
    (after (exec (.rstitem 1) (atQueue [(0, 0x61), (4096, 0x62)] 0 2 2))).map (fun t => (queue t, t.live)) =
      some ((0, 2, 2), [[0x61, 0, 0, 0, 0, 0, 0, 0], [0, 0, 0, 0, 0, 0, 0, 0]]) := by decide
/-- Q23. -/
theorem test_rstitem_out_of_range :
    (after (exec (.rstitem 4) oneLine)).map (fun t => (queue t, t.slot == oneLine.slot, t.sOut.map SAnswer.ok)) =
      some ((0, 1, 1), true, [false]) := by decide
/-- F1, F2, F3, F4. -/
theorem test_rxb_stores_ignores_pushes_drops :
    (after (exec (.rxb 0x72) State.reset)).map (fun t => (t.cursor, t.fbuf)) = some (1, [(0, 0x72)]) ∧
    (after (exec (.rxb 0x0D) threeBytes)).map (fun t => (t.cursor, queue t)) = some (3, (0, 0, 0)) ∧
    (after (exec (.rxb 0x0A) threeBytes)).map (fun t => (t.cursor, queue t, t.record 0)) =
      some (0, (0, 1, 1), [0x72, 0x72, 0x31, 0, 0, 0, 0, 0]) ∧
    (after (exec (.rxb 0x0A) { fullQueue with fbuf := [(0, 0x72)], cursor := 3 })).map
      (fun t => (t.cursor, queue t, t.record 0)) =
      some (0, (0, 0, 4), [0x61, 0, 0, 0, 0, 0, 0, 0]) := by decide
/-- F5, F6, F7, F8. -/
theorem test_rxb_overflows_first :
    (after (exec (.rxb 0x78) atCapacity)).map (fun t => (t.cursor, queue t, t.fbuf)) = some (0, (0, 0, 0), []) ∧
    (after (exec (.rxb 0x0A) atCapacity)).map (fun t => (t.cursor, queue t)) = some (0, (0, 0, 0)) ∧
    (after (exec (.rxb 0x0D) atCapacity)).map (fun t => (t.cursor, queue t)) = some (0, (0, 0, 0)) ∧
    (after (exec (.rxb 0x0A) State.reset)).map (fun t => (t.cursor, queue t)) = some (0, (0, 1, 1)) := by decide
/-- The word placed is the one the next step performs; the lanes keep their payload. -/
theorem test_step_performs_the_placed_word :
    (after (step (State.reset.withFetchWord 16 0x1000))).map State.tick = some 1 ∧
    (after (step ({ State.reset with aWdata := 0x61 }.withFetchWord 16 0x3001))).map (fun t => t.record 0) =
      some [0x61, 0, 0, 0, 0, 0, 0, 0] ∧
    (after (step (State.reset.withFetchWord 16 0xB000))).map (fun t => t.sOut.map SAnswer.val) = some [1] := by decide

/-- R90: `DRAIN` tells a `COUNT` of 0 from a loop not yet at its end; `ELAPSED` across the wrap of the tick (P4). -/
theorem test_drain_and_elapsed :
    (match drain [([], [])] oneLine with | .next (t, b) => some (queue t, b) | .fault _ => none | .refused _ => none) =
      some ((1, 1, 0), true) ∧
    (match drain [] oneLine with | .next (t, b) => some (queue t, b) | .fault _ => none | .refused _ => none) =
      some ((0, 1, 1), false) ∧
    (match readElapsed 0xFA { State.reset with tick := 0x03 } with
      | .next (_, e) => e | .fault _ => none | .refused _ => none) = some 9 := by decide

/-! ## Witnesses: states and operands that meet the hypotheses of each statement -/

theorem witness_encoding : (Instr.push 4095).wellFormed = true ∧ Port.S ≠ (Instr.push 4095).port ∧
    decode .S 0xDFFF = .ok (.rstitem 4095) ∧
    (¬ ∃ r ∈ opcodeMap, (0xFFFF : Word) &&& r.mask = r.pattern ∧ r.port = .A) ∧
    (∃ r ∈ opcodeMap, (0x30FF : Word) &&& r.mask = r.pattern) := by decide

/-- Requests in each form, and the same with illegal words (StepRunsDecodedRequest, StepRefusesIllegalWord). -/
theorem witness_requests :
    { State.reset with inputs := [.sync 0x8008] }.inputs = .sync 0x8008 :: [] ∧ decode .S 0x8008 = .ok (.pop 8) ∧
    { State.reset with inputs := [.async ⟨0x200A, 0⟩ []] }.inputs = .async ⟨0x200A, 0⟩ [] :: [] ∧
    decode .A 0x200A = .ok (.rxb 0x0A) ∧
    { State.reset with inputs := [.async ⟨0x1000, 0⟩ [⟨0x1000, 0⟩]] }.inputs =
      .async ⟨0x1000, 0⟩ [⟨0x1000, 0⟩] :: [] ∧ decode .A 0x1000 = .ok .tick ∧
    decode .S 0x1000 = .error .wrongPort ∧ decode .A 0x0000 = .error .reservedCode := by decide

theorem witness_nothing_presented : State.reset.inputs = [] := rfl

theorem witness_event : ∃ s t : State, s.inputs = .async ⟨0x1000, 0⟩ (⟨0x200A, 0⟩ :: []) :: [] ∧ step s = .next t :=
  ⟨{ State.reset with inputs := [.async ⟨0x1000, 0⟩ [⟨0x200A, 0⟩]] }, _, rfl, rfl⟩

theorem witness_rxbuf : ∃ s : State, s.inputs = rxbuf 0 (0x61 :: [0x0A]) ++ [] :=
  ⟨{ State.reset with inputs := rxbuf 0 [0x61, 0x0A] }, rfl⟩

/-- RxsFeedsTheFramer: a string in two events, S-port operations before, between and after them. -/
theorem witness_rxs : ∃ s : State, s.Inv ∧
    (∀ e ∈ [([], [.count]), ([0x61], [.pop 8, .rstall]), ([0x62, 0x0A], [.rstitem 4095])],
      ∀ i ∈ e.2, Instr.port i = .S ∧ i.wellFormed = true) ∧
    s.inputs = rxs 0 [([], [.count]), ([0x61], [.pop 8, .rstall]), ([0x62, 0x0A], [.rstitem 4095])] ++ [] :=
  ⟨{ State.reset with
      inputs := rxs 0 [([], [.count]), ([0x61], [.pop 8, .rstall]), ([0x62, 0x0A], [.rstitem 4095])] },
    by decide, by decide, rfl⟩

/-- TicksAdvanceTheTick: more ticks than a one-bit tick counts. -/
theorem witness_ticks : ∃ s : State, s.tick < 2 ^ s.cfg.tw ∧ s.inputs = ticks 0 3 ++ [] :=
  ⟨{ State.resetWith ⟨1, 1, 1⟩ with inputs := ticks 0 3 }, by decide, rfl⟩

/-- PushAndPopCommute, at both ends of the occupancy and with both lengths at `C`. -/
theorem witness_commute :
    oneLine.Inv ∧ 0 < oneLine.count ∧ oneLine.count < oneLine.cfg.n ∧ 8 ≤ oneLine.cfg.c ∧
    (atQueue [(0, 1), (4096, 1), (8192, 1)] 0 3 3).Inv ∧ 3 < oneLine.cfg.n := by decide

/-- TickIncrements at the wrap, with one-bit ticks. -/
theorem witness_tick : ∃ s t : State, s.Inv ∧ s.tick = 2 ^ s.cfg.tw - 1 ∧ exec .tick s = .next t :=
  ⟨{ State.resetWith ⟨1, 1, 1⟩ with tick := 1 }, _, by decide, by decide, rfl⟩

/-- RdtickReadsTheTick: a whole period of ticks between two reads. -/
theorem witness_rdtick : ∃ s t u v : State, s.Inv ∧ exec .rdtick s = .next t ∧
    execAll [.tick, .count, .tick] t = .next u ∧ tickCount [.tick, .count, .tick] % 2 ^ s.cfg.tw = 0 ∧
    exec .rdtick u = .next v :=
  ⟨State.resetWith ⟨1, 1, 1⟩, _, _, _, by decide, rfl, rfl, by decide, rfl⟩

/-- ElapsedReadsAndSubtracts: one tick across the wrap. -/
theorem witness_elapsed : ∃ s t u : State, s.tick < 2 ^ s.cfg.tw ∧ exec .rdtick s = .next t ∧
    execAll [.empty, .tick] t = .next u ∧ tickCount [.empty, .tick] < 2 ^ s.cfg.tw :=
  ⟨{ State.resetWith ⟨1, 1, 1⟩ with tick := 1 }, _, _, by decide, rfl, rfl, by decide⟩

/-- OnlyTickWritesTheTick, TickValueLaw, DeadlineTestIsExact: across the wrap. -/
theorem witness_tick_laws : ∃ s t u : State, s.tick < 2 ^ s.cfg.tw ∧ exec .tick s = .next u ∧
    execAll [.tick, .empty] s = .next t ∧ tickCount [.tick, .empty] < 2 ^ s.cfg.tw ∧ 2 ^ s.cfg.tw - 1 ≤ 1 ∧
    ∃ v, execAll [.tick, .tick] (State.resetWith ⟨1, 1, 1⟩) = .next v :=
  ⟨{ State.resetWith ⟨1, 1, 1⟩ with tick := 1 }, _, _, by decide, rfl, rfl, by decide, by decide, _, rfl⟩

/-- PushMeaning, PushAppendsTheRecord, FullAnswers: fails for each cause alone, succeeds at `len = C` and
`tail = N - 1`. -/
theorem witness_push :
    fullQueue.count = fullQueue.cfg.n ∧ ¬ fullQueue.cfg.c < 0 ∧ oneLine.cfg.c < 9 ∧ oneLine.count ≠ oneLine.cfg.n ∧
    (atQueue [] 3 3 0).Inv ∧ (atQueue [] 3 3 0).count ≠ (atQueue [] 3 3 0).cfg.n ∧ 8 ≤ (atQueue [] 3 3 0).cfg.c ∧
    (atQueue [] 3 3 0).tail < (atQueue [] 3 3 0).cfg.n ∧ 4095 < 4096 := by decide

/-- PopMeaning, PopRemovesTheOldestRecord, HeadRule, CountRule: fails for each cause alone, succeeds at `len = C`
and at `len = 0`. -/
theorem witness_pop :
    State.reset.count = 0 ∧ ¬ State.reset.cfg.c < 8 ∧ oneLine.cfg.c < 9 ∧ oneLine.count ≠ 0 ∧ oneLine.Inv ∧
    8 ≤ oneLine.cfg.c ∧ 0 ≤ oneLine.cfg.c ∧ oneLine.head < oneLine.cfg.n := by decide

/-- CountAnswers, FullAnswers at `N = 1`, EmptyAnswers with both agents at work between. -/
theorem witness_status_reads : (State.resetWith ⟨1, 1, 1⟩).Inv ∧ (State.resetWith ⟨1, 1, 1⟩).cfg.n = 1 ∧
    fullQueue.Inv ∧ (∃ t, exec .count fullQueue = .next t) ∧ oneLine.count ≠ 0 ∧
    (∀ i ∈ [Instr.rxb 0x0A, .push 9, .count, .rstitem 0, .pop 9], i ≠ .rstall ∧ ∀ k, i = .pop k → oneLine.cfg.c < k) ∧
    ∃ t, execAll [.rxb 0x0A, .push 9, .count, .rstitem 0, .pop 9] oneLine = .next t :=
  ⟨by decide, by decide, by decide, ⟨_, rfl⟩, by decide, by simp [show oneLine.cfg.c = 8 from rfl], _, rfl⟩

/-- FullAnswers: the last clause with every `RXB` that pushes nothing and a `PUSH` that fails among the operations
between, and both pushes next, the `PUSH` at `len = C`. -/
theorem witness_full : ∃ t, threeBytes.Inv ∧ threeBytes.count ≠ threeBytes.cfg.n ∧
    NoPush [.rxb 0x61, .rxb 0x0D, .push 9, .pop 8] threeBytes ∧
    execAll [.rxb 0x61, .rxb 0x0D, .push 9, .pop 8] threeBytes = .next t ∧ 8 ≤ threeBytes.cfg.c ∧
    t.cursor < t.cfg.c := by
  refine ⟨_, by decide, by decide, ⟨by simp, ?_⟩, rfl, by decide, by decide⟩
  rintro _ ⟨⟩; refine ⟨by simp, ?_⟩
  rintro _ ⟨⟩; refine ⟨?_, ?_⟩
  · rintro (⟨len, ⟨⟩, -, h⟩ | ⟨⟨⟩, -⟩); exact absurd h (by decide)
  · rintro _ ⟨⟩; exact ⟨by simp, fun _ _ => trivial⟩

/-- RstallMeaning: a half accumulated line, and the cursor at either end of its range. -/
theorem witness_rstall : threeBytes.Inv ∧ threeBytes.cursor < threeBytes.cfg.c ∧
    State.reset.Inv ∧ State.reset.cursor < State.reset.cfg.c ∧
    (∃ s : State, s.Inv ∧ s.cursor < s.cfg.c ∧ s.cursor = s.cfg.c - 1) :=
  ⟨by decide, by decide, by decide, by decide, { threeBytes with cursor := 7 }, by decide, by decide, rfl⟩

/-- RstitemInRange, ResetsOnTheContent at the last slot; RstitemOutOfRangeFails at the first index outside. -/
theorem witness_rstitem : 3 < oneLine.cfg.n ∧ oneLine.Inv ∧ oneLine.cfg.n ≤ 4 ∧ 4095 < 4096 := by decide

/-- DrainAmidTheProducer: a producer that pushes in both gaps of the first round, and rounds enough to stop; and
no round at all on a queue that holds a record. -/
theorem witness_drain : oneLine.Inv ∧
    (∀ r ∈ ([([(.push 1, 0x61), (.tick, 0)], [(.rxb 0x0A, 0)]), ([], []), ([], [])] : List DrainRound),
      ∀ x ∈ r.1 ++ r.2, x.1.port = .A) ∧
    oneLine.count + (([([(.push 1, 0x61), (.tick, 0)], [(.rxb 0x0A, 0)]), ([], []), ([], [])] :
      List DrainRound).flatMap fun r => r.1 ++ r.2).countP (fun x => x.1.mayPush) ≤ 3 ∧
    ¬ oneLine.count ≤ 0 := by decide

/-- QueueTestableProperties: its runs, its failures, its bound. -/
theorem witness_queue_properties :
    (∃ t, execAll [.push 8, .push 8] State.reset = .next t) ∧ State.reset.Inv ∧ State.reset.count = 0 ∧
    3 ≤ State.reset.cfg.n ∧ 0 ≤ State.reset.cfg.c ∧ 8 ≤ State.reset.cfg.c ∧ fullQueue.count = fullQueue.cfg.n ∧
    (∃ t, exec (.push 0) fullQueue = .next t) ∧ ∃ t, exec (.pop 0) State.reset = .next t :=
  ⟨⟨_, rfl⟩, by decide, by decide, by decide, by decide, by decide, by decide, ⟨_, rfl⟩, _, rfl⟩

theorem witness_queue_runs : ∃ s : State, s.Inv ∧ s.count = 0 ∧
    s.inputs = [.async (requestA (.push 0) 1) [], .async (requestA (.push 3) 2) [],
      .async (requestA (.push s.cfg.c) 3) [], requestS (.pop s.cfg.c), requestS (.pop s.cfg.c),
      requestS (.pop s.cfg.c)] ++ [] :=
  ⟨{ State.reset with inputs := [.async (requestA (.push 0) 1) [], .async (requestA (.push 3) 2) [],
      .async (requestA (.push 8) 3) [], requestS (.pop 8), requestS (.pop 8), requestS (.pop 8)] },
    by decide, by decide, rfl⟩

theorem witness_round_trip : ∃ s : State, s.Inv ∧ s.count = 0 ∧
    s.inputs = [.async (requestA (.push 5) 0x3F4E44492A) [], requestS (.pop s.cfg.c)] ++ [] :=
  ⟨{ State.reset with inputs := [.async (requestA (.push 5) 0x3F4E44492A) [], requestS (.pop 8)] },
    by decide, by decide, rfl⟩

/-- RxbMeaning: a state and a byte in each of its five branches, at the boundary of each test. -/
theorem witness_rxb :
    atCapacity.cfg.c ≤ atCapacity.cursor ∧ ¬ threeBytes.cfg.c ≤ 7 ∧ threeBytes.count < threeBytes.cfg.n ∧
    threeBytes.tail < threeBytes.cfg.n ∧ ¬ fullQueue.count < fullQueue.cfg.n ∧ ¬ fullQueue.cfg.c ≤ fullQueue.cursor ∧
    (0x0B : Byte) ≠ 0x0A ∧ (0x0B : Byte) ≠ 0x0D := by decide

theorem witness_framed_record : ∃ s t : State, s.Inv ∧ exec (.rxb 0x0A) s = .next t ∧ t.count ≠ s.count :=
  ⟨{ threeBytes with cursor := 7 }, _, by decide, rfl, by decide⟩

/-- FramingLaw: the longest line with a `CR` inside, the empty line, an empty queue and a full one. -/
theorem witness_framing :
    State.reset.Inv ∧ State.reset.cursor = 0 ∧ (∀ b ∈ ([1, 2, 3, 0x0D, 4, 5, 6, 7] : List Byte), b ≠ 0x0A) ∧
    (([1, 2, 3, 0x0D, 4, 5, 6, 7] : List Byte).filter (fun b => b ≠ 0x0D)).length ≤ State.reset.cfg.c - 1 ∧
    (([] : List Byte).filter (fun b => b ≠ 0x0D)).length ≤ State.reset.cfg.c - 1 ∧
    State.reset.count < State.reset.cfg.n ∧ fullQueue.Inv ∧ fullQueue.cursor = 0 ∧
    fullQueue.count = fullQueue.cfg.n := by decide

theorem witness_overlong :
    State.reset.Inv ∧ State.reset.cursor = 0 ∧
    (∀ b ∈ ([1, 2, 3, 4, 5, 6, 7, 8, 9] : List Byte), b ≠ 0x0A ∧ b ≠ 0x0D) ∧
    ([1, 2, 3, 4, 5, 6, 7, 8, 9] : List Byte).length = State.reset.cfg.c + 1 := by decide

/-- ResetLeaves, ResetMeetsInvariant: the smallest and the largest parameters. -/
theorem witness_parameters : (Params.mk 1 1 1).Valid ∧ (Params.mk 4096 4095 32).Valid := by decide

/-- StepKeepsInvariant, EveryOperationCompletes, StepStopsOnlyOnIllegalWords, ParametersNeverChange,
IndicesFitTheirWidths: a state of the invariant with a request that runs, and one with an illegal word. -/
theorem witness_step : ∃ s t u : State, s.Inv ∧ step s = .next t ∧ runSteps 1 s = .next t ∧ u.Inv ∧
    step u = .refused (.illegalWord .S .nonzeroArg) :=
  ⟨{ fullQueue with inputs := [.sync 0x8008] }, _, { State.reset with inputs := [.sync 0x9001] },
    by decide, rfl, rfl, by decide, rfl⟩

/-- The whole-machine rules: a successful push, line, pop and `RSTALL` from states of the invariant, and
operations that move nothing (HeadRule, TailRule, CountRule, FramerStateIsRxbAlone, WhatEachPortLeavesAlone,
AnswersFitTheirWires). -/
theorem witness_machine_rules :
    (∃ t, exec (.push 8) oneLine = .next t) ∧ (∃ t, exec (.rxb 0x0A) oneLine = .next t) ∧
    oneLine.cursor < oneLine.cfg.c ∧ (∃ t, exec (.pop 8) oneLine = .next t) ∧ (∃ t, exec .rstall oneLine = .next t) ∧
    (∃ t, exec .tick oneLine = .next t) ∧ oneLine.Inv ∧ Instr.tick.port = .A ∧ Instr.rdtick.port = .S ∧
    oneLine.count < oneLine.cfg.n :=
  ⟨⟨_, rfl⟩, ⟨_, rfl⟩, by decide, ⟨_, rfl⟩, ⟨_, rfl⟩, ⟨_, rfl⟩, by decide, by decide, by decide, by decide⟩

/-- SlotWriters, PopMeaning's last clause: a byte that a push, an `RSTITEM` and an `RSTALL` change. -/
theorem witness_slot_writers : ∃ t u v : State, oneLine.Inv ∧
    exec (.push 1) { oneLine with aWdata := 1 } = .next t ∧ Memory.read t.slot 4096 ≠ Memory.read oneLine.slot 4096 ∧
    exec (.rstitem 0) oneLine = .next u ∧ Memory.read u.slot 2 ≠ Memory.read oneLine.slot 2 ∧
    exec .rstall oneLine = .next v ∧ Memory.read v.slot 2 ≠ Memory.read oneLine.slot 2 :=
  ⟨_, _, _, by decide, rfl, by decide, rfl, by decide, rfl, by decide⟩

/-- ReadsAndFailuresChangeNothing: two reads of a kind with none and with one between, a pop that succeeds, and a
failure on each port. -/
theorem witness_reads : ∃ (t u v p f g : State) (a b : SAnswer), exec .count oneLine = .next t ∧
    execAll [] t = .next t ∧ execAll [.full] t = .next u ∧ exec .count u = .next v ∧
    Instr.count.isStatusRead = true ∧ (∀ j ∈ [Instr.full], j.isStatusRead = true) ∧
    exec (.pop 0) oneLine = .next p ∧ p.sOut = a :: oneLine.sOut ∧ a.ok = true ∧
    exec (.push 9) oneLine = .next f ∧ f.aOut = false :: oneLine.aOut ∧
    exec (.pop 9) oneLine = .next g ∧ g.sOut = b :: oneLine.sOut ∧ b.ok = false :=
  ⟨_, _, _, _, _, _, _, _, rfl, rfl, rfl, rfl, by decide, by decide, rfl, rfl, rfl, rfl, rfl, rfl, rfl, rfl⟩

/-- HiddenStateReachesNoAnswer: two different states of one view, with different heads and stale bytes; and a
pair with equal heads for `RSTITEM`. -/
theorem witness_hidden : ∃ s s' t u : State, s.Inv ∧ s'.Inv ∧ s.SameView s' ∧ s ≠ s' ∧ s.head ≠ s'.head ∧
    (∀ k, Instr.pop 8 ≠ .rstitem k) ∧ exec (.pop 8) s = .next t ∧ s.SameView s ∧ exec (.rstitem 0) s = .next u :=
  ⟨oneLine, { atQueue [(0, 9), (4096, 0x72), (4097, 0x72), (4098, 0x31)] 1 2 1 with fbuf := [(3, 7)] }, _, _,
    by decide, by decide, ⟨rfl, rfl, by decide, rfl, by decide, rfl, rfl, rfl, rfl, rfl, rfl⟩, by decide, by decide,
    (fun _ h => by cases h), rfl, ⟨rfl, rfl, rfl, rfl, rfl, rfl, rfl, rfl, rfl, rfl, rfl⟩, rfl⟩

end Sys2Proof.Tests
end

section
/-! The rules of the block's control fields (spec/10_state.md): what a completed operation does to the seven
elements, said once (`exec_effect`), and from it the rules of the tick, of `head`, of `tail` and of `count`. -/

namespace Sys2Proof.Machine

/-! ### What an operation that completes does to the block -/

/-- The operation, from this state, is answered and moves no element: a status read (R151), an operation that
fails (R120, R122, R127), an `RXB` that ignores its byte (R141). -/
def State.Idle (s : State) : Instr → Prop
  | .tick => False
  | .rxb b => s.rxOutcome b = .ignore
  | .push len => s.count = s.cfg.n ∨ s.cfg.c < len
  | .pop len => s.count = 0 ∨ s.cfg.c < len
  | .count => True
  | .full => True
  | .empty => True
  | .rstall => False
  | .rstitem k => s.cfg.n ≤ k
  | .rdtick => True

/-- The operation, from this state, is a `POP` that succeeds (R122). -/
abbrev State.Pops (s : State) (i : Instr) : Prop := ∃ len, i = .pop len ∧ s.count ≠ 0 ∧ len ≤ s.cfg.c

/-- `Effect s i u`: the operation `i` takes the elements of `s` to those of `u`, under the guard of its rule. -/
inductive Effect (s : State) : Instr → State → Prop
  | idle {i : Instr} (h : s.Idle i) : Effect s i s
  | tick : Effect s .tick s.tickUp
  | rewind {b : Byte} (h : s.rxOutcome b = .overflow ∨ s.rxOutcome b = .dropped) : Effect s (.rxb b) s.rewind
  | store {b : Byte} (h : s.rxOutcome b = .store) : Effect s (.rxb b) (s.storeByte b)
  | line {b : Byte} (h : s.rxOutcome b = .pushed) (ht : s.tail < s.cfg.n) :
      Effect s (.rxb b) (s.append (s.memReadF s.cursor) s.cursor).rewind
  | push {len : Nat} (hn : s.count ≠ s.cfg.n) (hl : len ≤ s.cfg.c) (ht : s.tail < s.cfg.n) :
      Effect s (.push len) (s.append s.payload len)
  | pop {len : Nat} (hn : s.count ≠ 0) (hl : len ≤ s.cfg.c) (hh : s.head < s.cfg.n) :
      Effect s (.pop len) s.dropOldest
  | rstall : Effect s .rstall s.clearQueue
  | rstitem {k : Nat} (h : k < s.cfg.n) : Effect s (.rstitem k) (s.clearSlot k)

theorem sameBlock_answerA (u : State) (ok : Bool) : u.SameBlock (u.answerA ok) :=
  ⟨rfl, rfl, rfl, rfl, rfl, rfl, rfl⟩

theorem sameBlock_answerS (u : State) (ok : Bool) (val : Option Nat) (data : List Byte) :
    u.SameBlock (u.answerS ok val data) := ⟨rfl, rfl, rfl, rfl, rfl, rfl, rfl⟩

/-- An operation that completes does one of the effects, and then only answers. -/
theorem exec_effect {i : Instr} {s t : State} (h : exec i s = .next t) :
    ∃ u, Effect s i u ∧ u.SameBlock t ∧ t.cfg = u.cfg := by
  cases i with
  | tick => rw [exec_tick_eq] at h; subst h; exact ⟨_, .tick, sameBlock_answerA .., rfl⟩
  | rxb b =>
    rw [exec_rxb_eq] at h
    rcases h with ⟨ho, rfl⟩ | ⟨ho, rfl⟩ | ⟨ho, ht, rfl⟩ | ⟨ho, rfl⟩ | ⟨ho, rfl⟩
    · exact ⟨_, .rewind (.inl ho), sameBlock_answerA .., rfl⟩
    · exact ⟨_, .idle ho, sameBlock_answerA .., rfl⟩
    · exact ⟨_, .line ho ht, sameBlock_answerA .., rfl⟩
    · exact ⟨_, .rewind (.inr ho), sameBlock_answerA .., rfl⟩
    · exact ⟨_, .store ho, sameBlock_answerA .., rfl⟩
  | push len =>
    rw [exec_push_eq] at h
    rcases h with ⟨hf, rfl⟩ | ⟨hn, hl, ht, rfl⟩
    · exact ⟨_, .idle hf, sameBlock_answerA .., rfl⟩
    · exact ⟨_, .push hn hl ht, sameBlock_answerA .., rfl⟩
  | pop len =>
    rw [exec_pop_eq] at h
    rcases h with ⟨hf, rfl⟩ | ⟨hn, hl, hh, rfl⟩
    · exact ⟨_, .idle hf, sameBlock_answerS .., rfl⟩
    · exact ⟨_, .pop hn hl hh, sameBlock_answerS .., rfl⟩
  | count => rw [exec_count_eq] at h; subst h; exact ⟨_, .idle trivial, sameBlock_answerS .., rfl⟩
  | full => rw [exec_full_eq] at h; subst h; exact ⟨_, .idle trivial, sameBlock_answerS .., rfl⟩
  | empty => rw [exec_empty_eq] at h; subst h; exact ⟨_, .idle trivial, sameBlock_answerS .., rfl⟩
  | rstall => rw [exec_rstall_eq] at h; subst h; exact ⟨_, .rstall, sameBlock_answerS .., rfl⟩
  | rstitem k =>
    rw [exec_rstitem_eq] at h
    rcases h with ⟨hk, rfl⟩ | ⟨hk, rfl⟩
    · exact ⟨_, .idle hk, sameBlock_answerS .., rfl⟩
    · exact ⟨_, .rstitem hk, sameBlock_answerS .., rfl⟩
  | rdtick => rw [exec_rdtick_eq] at h; subst h; exact ⟨_, .idle trivial, sameBlock_answerS .., rfl⟩

/-! ### The parameters and the tick -/

/-- No operation changes the parameters (R6). -/
theorem exec_cfg {i : Instr} {s t : State} (h : exec i s = .next t) : t.cfg = s.cfg := by
  obtain ⟨u, e, -, hcfg⟩ := exec_effect h
  rw [hcfg]
  cases e <;> rfl

/-- The tick after any operation (R29). -/
theorem exec_tick {i : Instr} {s t : State} (h : exec i s = .next t) :
    t.tick = if i = .tick then (s.tick + 1) % 2 ^ s.cfg.tw else s.tick := by
  obtain ⟨u, e, ⟨htick, -⟩, -⟩ := exec_effect h
  rw [htick]
  cases e with
  | idle hidle => rw [if_neg (by rintro rfl; exact hidle)]
  | _ => rfl

/-- Settles O18: the tick of each effect (`exec_tick`); a remainder modulo `2^TW` is in range. -/
theorem onlyTickWritesTheTick : Obligations.OnlyTickWritesTheTick := by
  refine ⟨fun _ => rfl, fun i s t h => exec_tick h, fun i s t hs h => ?_⟩
  rw [exec_tick h, exec_cfg h]
  split
  · exact Nat.mod_lt _ (Nat.two_pow_pos _)
  · exact hs

/-! ### `head` -/

/-- `head` stays where no `RSTALL` and no `POP` that succeeds moves it (R24). -/
theorem exec_head_of_not_pops {i : Instr} {s t : State} (h : exec i s = .next t) (hr : i ≠ .rstall)
    (hp : ¬ s.Pops i) : t.head = s.head := by
  obtain ⟨u, e, ⟨-, -, hhead, -⟩, -⟩ := exec_effect h
  rw [hhead]
  cases e with
  | pop hn hl => exact absurd ⟨_, rfl, hn, hl⟩ hp
  | rstall => exact absurd rfl hr
  | _ => rfl

/-- `head` stays a slot index (R24). -/
theorem exec_head_lt {i : Instr} {s t : State} (h : exec i s = .next t) (hs : s.head < s.cfg.n) :
    t.head < t.cfg.n := by
  obtain ⟨u, e, ⟨-, -, hhead, -⟩, -⟩ := exec_effect h
  rw [hhead, exec_cfg h]
  cases e with
  | pop => exact nextIndex_lt (by omega) _
  | rstall => exact Nat.zero_lt_of_lt hs
  | _ => exact hs

/-- A `POP` within its guards is the pop of R122. -/
theorem eq_of_exec_pop {s t : State} {len : Nat} (h : exec (.pop len) s = .next t) (hn : s.count ≠ 0)
    (hl : len ≤ s.cfg.c) : t = s.dropOldest.answerS true none (memReadQ s.slot s.head len) := by
  obtain ⟨-, -, -, ht⟩ := (exec_pop_eq.mp h).resolve_left fun hf => by omega
  exact ht

theorem getElem?_memReadQ (m : Memory) (i : Nat) {n k : Nat} (hk : k < n) :
    (memReadQ m i n)[k]? = some (Memory.read m (slotAddr i k)) := by
  simp [memReadQ, Memory.readBytes, slotAddr, hk]

/-- Settles O45: the head of each effect, and the answer of a `POP` that succeeds. -/
theorem headRule : Obligations.HeadRule := by
  intro i s t hi h
  obtain ⟨-, -, hh, -⟩ := hi
  refine ⟨exec_head_lt h hh, ?_, ?_, exec_head_of_not_pops h⟩
  · rintro rfl
    rw [exec_rstall_eq.mp h]; rfl
  · rintro len rfl hn hl
    rw [eq_of_exec_pop h hn hl]
    refine ⟨rfl, _, rfl, fun k hk => ?_⟩
    rw [List.getElem?_append_left (by simpa using hk)]
    exact getElem?_memReadQ _ _ hk

/-! ### `tail` -/

/-- `tail` stays where no `RSTALL` and no push that succeeds moves it (R25). -/
theorem exec_tail_of_not_pushes {i : Instr} {s t : State} (h : exec i s = .next t) (hr : i ≠ .rstall)
    (hp : ¬ s.Pushes i) : t.tail = s.tail := by
  obtain ⟨u, e, ⟨-, -, -, htail, -⟩, -⟩ := exec_effect h
  rw [htail]
  cases e with
  | push hn hl => exact absurd (.inl ⟨_, rfl, hn, hl⟩) hp
  | line ho =>
    obtain ⟨hc, rfl, hn⟩ := rxOutcome_eq.mp ho
    exact absurd (.inr ⟨rfl, hc, hn⟩) hp
  | rstall => exact absurd rfl hr
  | _ => rfl

/-- `tail` stays a slot index (R25). -/
theorem exec_tail_lt {i : Instr} {s t : State} (h : exec i s = .next t) (hs : s.tail < s.cfg.n) :
    t.tail < t.cfg.n := by
  obtain ⟨u, e, ⟨-, -, -, htail, -⟩, -⟩ := exec_effect h
  rw [htail, exec_cfg h]
  cases e with
  | push | line => exact nextIndex_lt (by omega) _
  | rstall => exact Nat.zero_lt_of_lt hs
  | _ => exact hs

/-- A `PUSH` within its guards is the push of R120. -/
theorem eq_of_exec_push {s t : State} {len : Nat} (h : exec (.push len) s = .next t) (hn : s.count ≠ s.cfg.n)
    (hl : len ≤ s.cfg.c) : t = (s.append s.payload len).answerA true := by
  obtain ⟨-, -, -, ht⟩ := (exec_push_eq.mp h).resolve_left fun hf => by omega
  exact ht

/-- An `LF` below capacity and with room pushes the line so far (R121, R140). -/
theorem eq_of_exec_lf {s t : State} (h : exec (.rxb 0x0A) s = .next t) (hc : s.cursor < s.cfg.c)
    (hn : s.count < s.cfg.n) : t = (s.append (s.memReadF s.cursor) s.cursor).rewind.answerA true := by
  have ho : s.rxOutcome 0x0A = .pushed := rxOutcome_eq.mpr ⟨hc, rfl, hn⟩
  have hcases := exec_rxb_eq.mp h
  simp only [ho, reduceCtorEq, false_and, true_and, false_or, or_false] at hcases
  exact hcases.2

/-- A push leaves the bytes of every slot but the one at `tail` (R21, R25). -/
theorem slotByte_append_other (s : State) {rec : List Byte} {len : Nat} (hc : s.cfg.c ≤ 4095)
    (hl : (rec.take len).length ≤ s.cfg.c) {i j : Nat} (hi : i ≠ s.tail) (hj : j < s.cfg.c) :
    (s.append rec len).slotByte i j = s.slotByte i j := by
  rw [slotByte_append s hc hl i (by omega), if_neg fun h => hi h.1]

/-- Settles O46: the tail of each effect; both pushes are an append, which fills the slot at `tail` alone. -/
theorem tailRule : Obligations.TailRule := by
  intro i s t hi h
  obtain ⟨⟨-, -, -, hcap, -⟩, -, -, htail, -⟩ := hi
  refine ⟨exec_tail_lt h htail, ?_, ?_, exec_tail_of_not_pushes h⟩
  · rintro rfl
    rw [exec_rstall_eq.mp h]; rfl
  · rintro (⟨len, rfl, hn, hl⟩ | ⟨rfl, hc, hn⟩)
    · obtain rfl := eq_of_exec_push h hn hl
      have hlen : (s.payload.take len).length ≤ s.cfg.c := by simp
      refine ⟨rfl, ?_, nofun, fun j k _ hk hj => slotByte_append_other s hcap hlen hj hk⟩
      rintro _ ⟨⟩
      exact record_append_tail s hcap hlen
    · obtain rfl := eq_of_exec_lf h hc hn
      have hlen : ((s.memReadF s.cursor).take s.cursor).length ≤ s.cfg.c := by simp; omega
      exact ⟨rfl, nofun, fun _ => record_append_tail s hcap hlen,
        fun j k _ hk hj => slotByte_append_other s hcap hlen hj hk⟩

/-! ### `count` -/

/-- `count` stays where no `RSTALL`, no push that succeeds and no `POP` that succeeds moves it (R26). -/
theorem exec_count_of_not_moves {i : Instr} {s t : State} (h : exec i s = .next t) (hr : i ≠ .rstall)
    (hpush : ¬ s.Pushes i) (hpop : ¬ s.Pops i) : t.count = s.count := by
  obtain ⟨u, e, ⟨-, -, -, -, hcount, -⟩, -⟩ := exec_effect h
  rw [hcount]
  cases e with
  | push hn hl => exact absurd (.inl ⟨_, rfl, hn, hl⟩) hpush
  | line ho =>
    obtain ⟨hc, rfl, hn⟩ := rxOutcome_eq.mp ho
    exact absurd (.inr ⟨rfl, hc, hn⟩) hpush
  | pop hn hl => exact absurd ⟨_, rfl, hn, hl⟩ hpop
  | rstall => exact absurd rfl hr
  | _ => rfl

/-- A push that succeeds adds one to the occupancy (R26). -/
theorem exec_count_of_pushes {i : Instr} {s t : State} (h : exec i s = .next t) (hp : s.Pushes i) :
    t.count = s.count + 1 := by
  rcases hp with ⟨len, rfl, hn, hl⟩ | ⟨rfl, hc, hn⟩
  · rw [eq_of_exec_push h hn hl]; rfl
  · rw [eq_of_exec_lf h hc hn]; rfl

/-- `count` stays in `[0, N]` (R26): without a push that succeeds it does not rise, and a push that succeeds
has room. -/
theorem exec_count_le {i : Instr} {s t : State} (h : exec i s = .next t) (hs : s.count ≤ s.cfg.n) :
    t.count ≤ t.cfg.n := by
  rw [exec_cfg h]
  by_cases hp : s.Pushes i
  · rw [exec_count_of_pushes h hp]
    rcases hp with ⟨-, -, hn, -⟩ | ⟨-, -, hn⟩
    · omega
    · exact hn
  · exact (count_le_of_not_pushes hp h).trans hs

/-- Settles O47: the count of each effect. -/
theorem countRule : Obligations.CountRule := by
  intro i s t hi h
  obtain ⟨-, -, -, -, hcount, -⟩ := hi
  refine ⟨exec_count_le h hcount, ?_, exec_count_of_pushes h, ?_, exec_count_of_not_moves h⟩
  · rintro rfl
    rw [exec_rstall_eq.mp h]; rfl
  · rintro len rfl hn hl
    rw [eq_of_exec_pop h hn hl]
    exact Nat.sub_add_cancel (Nat.pos_of_ne_zero hn)

end Sys2Proof.Machine
end

section
/-! Reads and failed operations (spec/20_memory.md, R59): a status read and an operation that fails leave the seven
elements, so a read asked again answers the same. -/

namespace Sys2Proof.Machine

theorem State.SameBlock.trans {s t u : State} (hst : s.SameBlock t) (htu : t.SameBlock u) : s.SameBlock u := by
  obtain ⟨htick, hslot, hhead, htail, hcount, hfbuf, hcursor⟩ := hst
  obtain ⟨htick', hslot', hhead', htail', hcount', hfbuf', hcursor'⟩ := htu
  exact ⟨htick'.trans htick, hslot'.trans hslot, hhead'.trans hhead, htail'.trans htail, hcount'.trans hcount,
    hfbuf'.trans hfbuf, hcursor'.trans hcursor⟩

/-! ### Status reads -/

theorem isStatusRead_iff {i : Instr} :
    i.isStatusRead = true ↔ i = .count ∨ i = .full ∨ i = .empty ∨ i = .rdtick := by
  simp [Instr.isStatusRead, or_assoc]

theorem sameBlock_of_exec_statusRead {i : Instr} {s t : State} (hi : i.isStatusRead = true)
    (h : exec i s = .next t) : s.SameBlock t := by
  obtain ⟨u, e, hb, -⟩ := exec_effect h
  cases e with
  | idle => exact hb
  | _ => simp [isStatusRead_iff] at hi

/-- Status reads, one after another, leave the seven elements and the parameters. -/
theorem sameBlock_of_execAll_statusReads {is : List Instr} {s t : State}
    (his : ∀ j ∈ is, j.isStatusRead = true) (h : execAll is s = .next t) : s.SameBlock t ∧ t.cfg = s.cfg := by
  induction is generalizing s with
  | nil => cases h; exact ⟨⟨rfl, rfl, rfl, rfl, rfl, rfl, rfl⟩, rfl⟩
  | cons i is ih =>
    obtain ⟨hi, his⟩ := List.forall_mem_cons.mp his
    obtain ⟨u, hu, h⟩ := execAll_cons_eq_next.mp h
    obtain ⟨hb, hcfg⟩ := ih his h
    exact ⟨(sameBlock_of_exec_statusRead hi hu).trans hb, hcfg.trans (exec_cfg hu)⟩

/-- A status read answers from the seven elements and the parameters alone. -/
theorem lastVal_statusRead_congr {i : Instr} {s u t v : State} (hi : i.isStatusRead = true) (hb : s.SameBlock u)
    (hcfg : u.cfg = s.cfg) (ht : exec i s = .next t) (hv : exec i u = .next v) : v.lastVal = t.lastVal := by
  obtain ⟨htick, -, -, -, hcount, -⟩ := hb
  rcases isStatusRead_iff.mp hi with rfl | rfl | rfl | rfl
  · rw [exec_count_eq] at ht hv; simp [ht, hv, hcount]
  · rw [exec_full_eq] at ht hv; simp [ht, hv, State.full, hcount, hcfg]
  · rw [exec_empty_eq] at ht hv; simp [ht, hv, State.empty, hcount]
  · rw [exec_rdtick_eq] at ht hv; simp [ht, hv, htick]

/-! ### `POP` -/

/-- A `POP` answered `ok = 1` is the pop of R122, within its guards. -/
theorem eq_of_exec_pop_ok {s t : State} {len : Nat} {a : SAnswer} (h : exec (.pop len) s = .next t)
    (hout : t.sOut = a :: s.sOut) (hok : a.ok = true) :
    s.count ≠ 0 ∧ t = s.dropOldest.answerS true none (memReadQ s.slot s.head len) := by
  rcases exec_pop_eq.mp h with ⟨-, rfl⟩ | ⟨hn, -, -, ht⟩
  · obtain ⟨rfl, -⟩ := List.cons.inj hout
    cases hok
  · exact ⟨hn, ht⟩

/-! ### Operations that fail -/

/-- What lies between `s` and `t` is one answer `ok = 0`, on the A-port or on the S-port (R11). -/
abbrev State.FailsTo (s t : State) : Prop :=
  t.aOut = false :: s.aOut ∨ ∃ a : SAnswer, t.sOut = a :: s.sOut ∧ a.ok = false

theorem not_failsTo_answerA_true {s u : State} (ha : u.aOut = s.aOut) (hs : u.sOut = s.sOut) :
    ¬ s.FailsTo (u.answerA true) := by
  simp [ha, hs]

theorem not_failsTo_answerS_true {s u : State} {val : Option Nat} {data : List Byte} (ha : u.aOut = s.aOut)
    (hs : u.sOut = s.sOut) : ¬ s.FailsTo (u.answerS true val data) := by
  simp [ha, hs]

/-- A failed operation changes nothing (R59): every arm that moves an element answers `ok = 1`. -/
theorem sameBlock_of_exec_fails {i : Instr} {s t : State} (h : exec i s = .next t) (hf : s.FailsTo t) :
    s.SameBlock t := by
  cases i with
  | tick => rw [exec_tick_eq] at h; subst h; exact absurd hf (not_failsTo_answerA_true rfl rfl)
  | rxb b =>
    rw [exec_rxb_eq] at h
    rcases h with ⟨-, rfl⟩ | ⟨-, rfl⟩ | ⟨-, -, rfl⟩ | ⟨-, rfl⟩ | ⟨-, rfl⟩ <;>
      exact absurd hf (not_failsTo_answerA_true rfl rfl)
  | push len =>
    rw [exec_push_eq] at h
    rcases h with ⟨-, rfl⟩ | ⟨-, -, -, rfl⟩
    · exact sameBlock_answerA ..
    · exact absurd hf (not_failsTo_answerA_true rfl rfl)
  | pop len =>
    rw [exec_pop_eq] at h
    rcases h with ⟨-, rfl⟩ | ⟨-, -, -, rfl⟩
    · exact sameBlock_answerS ..
    · exact absurd hf (not_failsTo_answerS_true rfl rfl)
  | rstall => rw [exec_rstall_eq] at h; subst h; exact absurd hf (not_failsTo_answerS_true rfl rfl)
  | rstitem k =>
    rw [exec_rstitem_eq] at h
    rcases h with ⟨-, rfl⟩ | ⟨-, rfl⟩
    · exact sameBlock_answerS ..
    · exact absurd hf (not_failsTo_answerS_true rfl rfl)
  | count | full | empty | rdtick => exact sameBlock_of_exec_statusRead rfl h

/-- Settles O50: status reads and failed operations leave the seven elements, a read depends on them alone, and
the pop of R122 drops the oldest record of the content. -/
theorem readsAndFailuresChangeNothing : Obligations.ReadsAndFailuresChangeNothing := by
  refine ⟨fun i s t => sameBlock_of_exec_statusRead, ?_, ?_, fun i s t => sameBlock_of_exec_fails⟩
  · intro i is s t u v hi his ht hu hv
    obtain ⟨hb, hcfg⟩ := sameBlock_of_execAll_statusReads his hu
    exact lastVal_statusRead_congr hi ((sameBlock_of_exec_statusRead hi ht).trans hb) (hcfg.trans (exec_cfg ht)) ht hv
  · intro len s t a hinv h hout hok
    obtain ⟨hn, rfl⟩ := eq_of_exec_pop_ok h hout hok
    refine ⟨?_, Nat.sub_add_cancel (Nat.pos_of_ne_zero hn)⟩
    rw [live_dropOldest hinv hn, List.tail_cons]
    exact (live_congr rfl rfl rfl rfl).symm

end Sys2Proof.Machine
end

section
/-! The tick (spec/40_tick.md): the value law R112 by induction on the operations performed, and from it what two
readings tell (R111, R13). -/

namespace Sys2Proof.Machine

/-! ### Counting the `TICK`s -/

@[simp] theorem tickCount_nil : tickCount [] = 0 := rfl

@[simp] theorem tickCount_cons (i : Instr) (is : List Instr) :
    tickCount (i :: is) = tickCount is + if i = .tick then 1 else 0 := by
  simp [tickCount, List.countP_cons]

/-! ### The tick after operations performed one after another -/

/-- The tick stays below `2^TW` (R29). -/
theorem exec_tick_lt {i : Instr} {s t : State} (hs : s.tick < 2 ^ s.cfg.tw) (h : exec i s = .next t) :
    t.tick < 2 ^ t.cfg.tw := by
  obtain ⟨-, -, hlt⟩ := onlyTickWritesTheTick
  exact hlt i s t hs h

/-- The tick counts the `TICK`s performed, modulo `2^TW` (R112). -/
theorem execAll_tick {is : List Instr} {s t : State} (hs : s.tick < 2 ^ s.cfg.tw) (h : execAll is s = .next t) :
    t.tick = (s.tick + tickCount is) % 2 ^ s.cfg.tw := by
  induction is generalizing s with
  | nil => cases h; exact (Nat.mod_eq_of_lt hs).symm
  | cons i is ih =>
    obtain ⟨u, hu, h⟩ := execAll_cons_eq_next.mp h
    rw [ih (exec_tick_lt hs hu) h, exec_cfg hu, exec_tick hu, tickCount_cons]
    split
    · rw [Nat.mod_add_mod, Nat.add_right_comm, Nat.add_assoc]
    · rfl

/-! ### Arithmetic modulo `2^TW` -/

/-- In range, one more is never the same modulo `2^TW`, since `TW` is at least one (R6, R110). -/
theorem succ_mod_two_pow_ne {a tw : Nat} (htw : 1 ≤ tw) (ha : a < 2 ^ tw) : (a + 1) % 2 ^ tw ≠ a := by
  have h2 : 1 < 2 ^ tw := Nat.one_lt_two_pow (Nat.ne_of_gt htw)
  have hle : a + 1 ≤ 2 ^ tw := ha
  rcases Nat.lt_or_eq_of_le hle with hlt | heq
  · rw [Nat.mod_eq_of_lt hlt]; omega
  · rw [heq, Nat.mod_self]; omega

/-- Modular subtraction of two readings gives the ticks between them, modulo `2^TW` (R13). -/
theorem elapsed_add_mod (p : Params) (start k : Nat) :
    elapsed p ((start + k) % 2 ^ p.tw) start = k % 2 ^ p.tw := by
  have hr : start % 2 ^ p.tw < 2 ^ p.tw := Nat.mod_lt _ (Nat.two_pow_pos _)
  calc ((start + k) % 2 ^ p.tw + (2 ^ p.tw - start % 2 ^ p.tw)) % 2 ^ p.tw
    _ = (start % 2 ^ p.tw + k + (2 ^ p.tw - start % 2 ^ p.tw)) % 2 ^ p.tw := by
      rw [← Nat.mod_add_mod start, Nat.mod_add_mod]
    _ = (k + 2 ^ p.tw) % 2 ^ p.tw := by congr 1; omega
    _ = k % 2 ^ p.tw := Nat.add_mod_right ..

/-! ### The statements -/

/-- Settles O16: `TICK` is `tickUp`, answered `ok = 1`; at `2^TW - 1` the increment reaches the modulus. -/
theorem tickIncrements : Obligations.TickIncrements := by
  refine ⟨rfl, fun s => exec_tick_eq.mpr rfl, fun s t hs h => ?_, fun s t hinv h => ?_⟩
  · rw [exec_tick h, if_pos rfl, hs, Nat.sub_add_cancel Nat.one_le_two_pow, Nat.mod_self]
  · obtain ⟨⟨-, -, -, -, htw⟩, htick, -⟩ := hinv
    rw [exec_tick h, if_pos rfl]
    exact succ_mod_two_pow_ne htw htick

/-- Settles O17: `RDTICK` only answers, with the tick; whole periods of `TICK`s add 0 modulo `2^TW` to it. -/
theorem rdtickReadsTheTick : Obligations.RdtickReadsTheTick := by
  refine ⟨rfl, fun s => ⟨_, exec_rdtick_eq.mpr rfl, rfl, rfl⟩, fun is s t u v hinv ht hu hk hv => ?_⟩
  obtain ⟨-, htick, -⟩ := hinv
  obtain rfl := exec_rdtick_eq.mp ht
  obtain rfl := exec_rdtick_eq.mp hv
  have hsame : u.tick = s.tick := by
    rw [execAll_tick (exec_tick_lt htick ht) hu, State.answerS_cfg, State.answerS_tick, ← Nat.add_mod_mod, hk]
    exact Nat.mod_eq_of_lt htick
  simp [hsame]

/-- Settles O19: the value law (`execAll_tick`), from reset's tick of 0, and under the readers' subtraction. -/
theorem tickValueLaw : Obligations.TickValueLaw := by
  refine ⟨fun is s t => execAll_tick, fun is p t h => ?_, fun is s t hs h hk => ?_⟩
  · rw [execAll_tick (Nat.two_pow_pos _) h]
    exact congrArg (· % 2 ^ p.tw) (Nat.zero_add _)
  · rw [execAll_tick hs h, elapsed_add_mod, Nat.mod_eq_of_lt hk]

end Sys2Proof.Machine
end

section
/-! The command words of the operations with a length (spec/30_encoding.md, R82, R84), read by their fields. -/

namespace Sys2Proof

/-- A word whose `arg` is 0, with a 12-bit operand put in, is the word of the two fields (R82). -/
theorem makeWord_or_ofNat (op : BitVec 4) {x : Nat} (h : x < 4096) :
    makeWord op 0 ||| BitVec.ofNat 16 x = makeWord op (BitVec.ofNat 12 x) := by
  have hx : BitVec.ofNat 16 x = 0#4 ++ BitVec.ofNat 12 x := by
    apply BitVec.eq_of_toNat_eq
    simp only [BitVec.toNat_append, BitVec.toNat_ofNat, Nat.zero_mod, Nat.zero_shiftLeft, Nat.zero_or]
    omega
  rw [hx, makeWord, makeWord, BitVec.or_append]
  simp

theorem decode_encode_push {len : Nat} (h : len < 4096) : decode .A (Instr.push len).encode = .ok (.push len) := by
  simp [Instr.encode, decode_makeWord, Nat.mod_eq_of_lt h]

theorem decode_encode_pop {len : Nat} (h : len < 4096) : decode .S (Instr.pop len).encode = .ok (.pop len) := by
  simp [Instr.encode, decode_makeWord, Nat.mod_eq_of_lt h]

end Sys2Proof
end

section
/-! The invariant of R27, R28 and R29 is kept: by each effect an operation can have, so by every operation and by every
sequence of them. -/

namespace Sys2Proof.Machine

/-! ### Addresses of space Q -/

/-- An address in the range of slot `i` is the pair `(i, j)` with `j < C` (R50). -/
theorem div_mod_of_mem_slot {i c a : Nat} (hc : c ≤ 4095) (h : slotAddr i 0 ≤ a ∧ a < slotAddr i 0 + c) :
    a / 4096 = i ∧ a % 4096 < c := by
  unfold slotAddr at h; omega

/-- The range of slot `i` is its bytes `0` to `C - 1`. -/
theorem not_mem_slot {i c a : Nat} (h : ∀ k, k < c → a ≠ slotAddr i k) :
    ¬ (slotAddr i 0 ≤ a ∧ a < slotAddr i 0 + c) := by
  rintro ⟨h1, h2⟩
  refine h (a - slotAddr i 0) (by omega) ?_
  unfold slotAddr at *; omega

/-! ### What the invariant says of a state, by name -/

theorem State.Inv.slots_pos {s : State} (hs : s.Inv) : 0 < s.cfg.n := by
  obtain ⟨⟨hn, -⟩, -⟩ := hs; exact hn

theorem State.Inv.capacity_le {s : State} (hs : s.Inv) : s.cfg.c ≤ 4095 := by
  obtain ⟨⟨-, -, -, hc, -⟩, -⟩ := hs; exact hc

theorem State.Inv.head_lt {s : State} (hs : s.Inv) : s.head < s.cfg.n := by
  obtain ⟨-, -, hhead, -⟩ := hs; exact hhead

theorem State.Inv.tail_lt {s : State} (hs : s.Inv) : s.tail < s.cfg.n := by
  obtain ⟨-, -, -, htail, -⟩ := hs; exact htail

theorem State.Inv.count_le {s : State} (hs : s.Inv) : s.count ≤ s.cfg.n := by
  obtain ⟨-, -, -, -, hcount, -⟩ := hs; exact hcount

theorem State.Inv.cursor_le {s : State} (hs : s.Inv) : s.cursor ≤ s.cfg.c := by
  obtain ⟨-, -, -, -, -, -, hcursor, -⟩ := hs; exact hcursor

/-! ### Each effect keeps the invariant -/

/-- The invariant speaks of the seven elements and the parameters alone. -/
theorem inv_congr {s t : State} (hb : s.SameBlock t) (hcfg : t.cfg = s.cfg) (hs : s.Inv) : t.Inv := by
  obtain ⟨htick, hslot, hhead, htail, hcount, hfbuf, hcursor⟩ := hb
  simpa only [State.Inv, htick, hslot, hhead, htail, hcount, hfbuf, hcursor, hcfg] using hs

theorem inv_tickUp {s : State} (hs : s.Inv) : s.tickUp.Inv := by
  obtain ⟨hcfg, -, hrest⟩ := hs
  exact ⟨hcfg, Nat.mod_lt _ (Nat.two_pow_pos _), hrest⟩

theorem inv_rewind {s : State} (hs : s.Inv) : s.rewind.Inv := by
  obtain ⟨hcfg, htick, hhead, htail, hcount, heq, -, hrest⟩ := hs
  exact ⟨hcfg, htick, hhead, htail, hcount, heq, Nat.zero_le _, hrest⟩

theorem inv_storeByte {s : State} {b : Byte} (hs : s.Inv) (hc : s.cursor < s.cfg.c) : (s.storeByte b).Inv := by
  obtain ⟨hcfg, htick, hhead, htail, hcount, heq, -, hslot, hfbuf, hq, hf⟩ := hs
  refine ⟨hcfg, htick, hhead, htail, hcount, heq, hc, hslot, Memory.wf_write hfbuf _ _, hq, fun c hmem => ?_⟩
  rcases Memory.mem_write hmem with h | h
  · exact h ▸ hc
  · exact hf c h

/-- A push with room keeps it: `tail` stays `count` places on from `head`, and the cells written lie in the slot at
`tail` (R25, R27). -/
theorem inv_append {s : State} {rec : List Byte} {len : Nat} (hs : s.Inv) (hn : s.count < s.cfg.n)
    (hl : (rec.take len).length ≤ s.cfg.c) : (s.append rec len).Inv := by
  have hpos := hs.slots_pos
  have hcap := hs.capacity_le
  obtain ⟨hcfg, htick, hhead, htail, -, heq, hcursor, hslot, hfbuf, hq, hf⟩ := hs
  refine ⟨hcfg, htick, hhead, nextIndex_lt hpos _, hn, ?_, hcursor,
    wf_memWriteQ (wf_memFillQ _ hslot _) _ _ _, hfbuf, fun c hmem => ?_, hf⟩
  · show (s.tail + 1) % s.cfg.n = (s.head + (s.count + 1)) % s.cfg.n
    rw [heq, Nat.mod_add_mod, Nat.add_assoc]
  · rcases Memory.mem_writeBytes _ hmem with h | h
    · obtain ⟨hi, hj⟩ := div_mod_of_mem_slot (c := s.cfg.c) hcap ⟨h.1, h.2.trans_le (Nat.add_le_add_left hl _)⟩
      exact ⟨hi ▸ htail, hj⟩
    · exact hq c (Memory.mem_clear h)

/-- A pop keeps it: `head` takes the place that `count` gives up (R24, R27). -/
theorem inv_dropOldest {s : State} (hs : s.Inv) (hn : s.count ≠ 0) : s.dropOldest.Inv := by
  have hpos := hs.slots_pos
  obtain ⟨hcfg, htick, -, htail, hcount, heq, hrest⟩ := hs
  refine ⟨hcfg, htick, nextIndex_lt hpos _, htail, (Nat.sub_le ..).trans hcount, ?_, hrest⟩
  show s.tail = ((s.head + 1) % s.cfg.n + (s.count - 1)) % s.cfg.n
  rw [heq, Nat.mod_add_mod, show s.head + 1 + (s.count - 1) = s.head + s.count by omega]

theorem inv_clearQueue {s : State} (hs : s.Inv) : s.clearQueue.Inv := by
  have hpos := hs.slots_pos
  obtain ⟨hcfg, htick, -, -, -, -, hcursor, hslot, hfbuf, hq, hf⟩ := hs
  exact ⟨hcfg, htick, hpos, hpos, Nat.zero_le _, (Nat.zero_mod _).symm, hcursor, wf_memFillAllQ _ hslot, hfbuf,
    fun c hmem => hq c (mem_memFillAllQ _ hmem), hf⟩

theorem inv_clearSlot {s : State} (hs : s.Inv) (k : Nat) : (s.clearSlot k).Inv := by
  obtain ⟨hcfg, htick, hhead, htail, hcount, heq, hcursor, hslot, hfbuf, hq, hf⟩ := hs
  exact ⟨hcfg, htick, hhead, htail, hcount, heq, hcursor, wf_memFillQ _ hslot k, hfbuf,
    fun c hmem => hq c (Memory.mem_clear hmem), hf⟩

/-! ### Operations keep the invariant -/

theorem effect_keeps_inv {i : Instr} {s u : State} (e : Effect s i u) (hs : s.Inv) : u.Inv := by
  cases e with
  | idle => exact hs
  | tick => exact inv_tickUp hs
  | rewind => exact inv_rewind hs
  | store ho =>
    obtain ⟨hc, -⟩ := rxOutcome_eq.mp ho
    exact inv_storeByte hs hc
  | line ho =>
    obtain ⟨hc, -, hn⟩ := rxOutcome_eq.mp ho
    exact inv_rewind (inv_append hs hn (by simpa using hc.le))
  | push hn hl => exact inv_append hs (hs.count_le.lt_of_ne hn) (by simp)
  | pop hn => exact inv_dropOldest hs hn
  | rstall => exact inv_clearQueue hs
  | rstitem => exact inv_clearSlot hs _

/-- An operation that completes keeps the invariant (R156). -/
theorem exec_keeps_inv {i : Instr} {s t : State} (hs : s.Inv) (h : exec i s = .next t) : t.Inv := by
  obtain ⟨u, e, hb, hcfg⟩ := exec_effect h
  exact inv_congr hb hcfg (effect_keeps_inv e hs)

theorem execAll_keeps_inv {is : List Instr} {s t : State} (hs : s.Inv) (h : execAll is s = .next t) : t.Inv := by
  induction is generalizing s with
  | nil => cases h; exact hs
  | cons i is ih =>
    obtain ⟨u, hu, h⟩ := execAll_cons_eq_next.mp h
    exact ih (exec_keeps_inv hs hu) h

/-- No sequence of operations changes the parameters (R6). -/
theorem execAll_cfg {is : List Instr} {s t : State} (h : execAll is s = .next t) : t.cfg = s.cfg := by
  induction is generalizing s with
  | nil => cases h; rfl
  | cons i is ih =>
    obtain ⟨u, hu, h⟩ := execAll_cons_eq_next.mp h
    exact (ih h).trans (exec_cfg hu)

end Sys2Proof.Machine
end

section
/-! The queue's operations (spec/41_queue.md): what each of them does to the bytes of space Q (R120, R122, R126), what
the status reads guarantee of the next operation (R124, R125), and the queue's order (R129). -/

namespace Sys2Proof.Machine

/-! ### The bytes of space Q -/

/-- A byte of the slot a push writes, for every capacity (R120). -/
theorem slotByte_append_tail (s : State) (rec : List Byte) (len : Nat) {k : Nat} (hk : k < s.cfg.c) :
    (s.append rec len).slotByte s.tail k = (rec.take len).getD k Config.sent := by
  have hsub : slotAddr s.tail k - slotAddr s.tail 0 = k := by unfold slotAddr; omega
  have hadd : slotAddr s.tail k = slotAddr s.tail 0 + k := by unfold slotAddr; omega
  rw [State.slotByte, read_append, hsub]
  by_cases hv : k < (rec.take len).length
  · rw [if_pos (by omega)]
  · rw [if_neg (by omega), if_pos (by omega), List.getD_eq_default _ _ (by omega)]

/-- A push of at most `C` bytes leaves every address outside the slot at `tail` (R120). -/
theorem read_append_outside (s : State) {rec : List Byte} {len a : Nat} (hl : (rec.take len).length ≤ s.cfg.c)
    (ha : ∀ k, k < s.cfg.c → a ≠ slotAddr s.tail k) :
    Memory.read (s.append rec len).slot a = Memory.read s.slot a := by
  have hout := not_mem_slot ha
  rw [read_append, if_neg (by omega), if_neg hout]

/-- The record of a payload: its byte lanes below `len`, then nothing (R85). -/
theorem getElem?_take_recordOf (p : Params) (w : Nat) {len : Nat} (hl : len ≤ p.c) (k : Nat) :
    ((recordOf p w).take len)[k]? = if k < len then some (byteLane w k) else none := by
  rw [List.getElem?_take]
  split
  · next hk => simp [recordOf, hk.trans_le hl]
  · rfl

/-- A byte of the slot a `PUSH` writes: a lane of the payload below `len`, then `SENT` (R120). -/
theorem slotByte_append_payload (s : State) {len k : Nat} (hl : len ≤ s.cfg.c) (hk : k < s.cfg.c) :
    (s.append s.payload len).slotByte s.tail k = if k < len then byteLane s.aWdata k else Config.sent := by
  rw [slotByte_append_tail s _ _ hk, List.getD_eq_getElem?_getD, State.payload, getElem?_take_recordOf _ _ hl]
  split <;> rfl

/-- `RSTALL` makes every byte of every slot read as `SENT` (R126). -/
theorem slotByte_clearQueue (s : State) {i k : Nat} (hi : i < s.cfg.n) (hk : k < s.cfg.c) :
    s.clearQueue.slotByte i k = Config.sent := by
  have hin : slotAddr i 0 ≤ slotAddr i k ∧ slotAddr i k < slotAddr i 0 + s.cfg.c := by unfold slotAddr; omega
  rw [State.slotByte, State.clearQueue_slot, read_memFillAllQ, if_pos ⟨i, hi, hin⟩]

/-- `RSTALL` leaves every address outside the slots (R126). -/
theorem read_clearQueue_outside (s : State) {a : Nat}
    (ha : ∀ i k, i < s.cfg.n → k < s.cfg.c → a ≠ slotAddr i k) :
    Memory.read s.clearQueue.slot a = Memory.read s.slot a := by
  rw [State.clearQueue_slot, read_memFillAllQ, if_neg]
  rintro ⟨i, hi, hin⟩
  exact not_mem_slot (fun k => ha i k hi) hin

theorem slotByte_congr {s t : State} (h : t.slot = s.slot) (j k : Nat) : t.slotByte j k = s.slotByte j k := by
  rw [State.slotByte, State.slotByte, h]

/-- A byte of a slot changes only by `RSTALL`, by `RSTITEM` of the slot and by a push into it (R122, R21). -/
theorem exec_slotByte_writer {i : Instr} {s t : State} {j k : Nat} (hcap : s.cfg.c ≤ 4095) (hk : k < s.cfg.c)
    (h : exec i s = .next t) (hne : t.slotByte j k ≠ s.slotByte j k) :
    i = .rstall ∨ i = .rstitem j ∨ (j = s.tail ∧ s.Pushes i) := by
  obtain ⟨u, e, ⟨-, hslot, -⟩, -⟩ := exec_effect h
  rw [slotByte_congr hslot] at hne
  cases e with
  | idle | tick | rewind | store | pop => exact absurd rfl hne
  | line ho =>
    obtain ⟨hc, rfl, hn⟩ := rxOutcome_eq.mp ho
    have hj : j = s.tail :=
      not_not.mp fun hj => hne (slotByte_append_other s hcap (by simpa using hc.le) hj hk)
    exact .inr (.inr ⟨hj, .inr ⟨rfl, hc, hn⟩⟩)
  | push hn hl =>
    have hj : j = s.tail := not_not.mp fun hj => hne (slotByte_append_other s hcap (by simp) hj hk)
    exact .inr (.inr ⟨hj, .inl ⟨_, rfl, hn, hl⟩⟩)
  | rstall => exact .inl rfl
  | @rstitem l _ =>
    have hj : j = l := by
      by_contra hj
      exact hne (by rw [slotByte_clearSlot s hcap l j (by omega), if_neg fun h => hj h.1])
    exact .inr (.inl (hj ▸ rfl))

/-! ### Push and pop -/

/-- Settles O22: a `PUSH` within its guards is an append, whose bytes are those of the padded payload. -/
theorem pushMeaning : Obligations.PushMeaning := by
  refine ⟨fun len hlen => ?_, fun len s hf => exec_push_eq.mpr (.inl ⟨hf, rfl⟩), fun len s hn hl ht => ?_⟩
  · rw [show 0x3000#16 = makeWord 0x3 0 from rfl, makeWord_or_ofNat _ hlen]
    exact decode_encode_push hlen
  · exact ⟨_, exec_push_eq.mpr (.inr ⟨hn, hl, ht, rfl⟩),
      fun k hk => (slotByte_append_payload s hl (hk.trans_le hl)).trans (if_pos hk),
      fun k hk hkc => (slotByte_append_payload s hl hkc).trans (if_neg hk.not_gt),
      fun a ha => read_append_outside s (by simp) ha, rfl⟩

/-- Settles O23: a `POP` within its guards drops the oldest record and answers its bytes; which operations write a
slot's byte is `exec_slotByte_writer`. -/
theorem popMeaning : Obligations.PopMeaning := by
  refine ⟨fun len hlen => ?_, fun len s hf => ⟨_, exec_pop_eq.mpr (.inl ⟨hf, rfl⟩), rfl⟩,
    fun len s hn hl hh => ⟨_, exec_pop_eq.mpr (.inr ⟨hn, hl, hh, rfl⟩), rfl, fun k hk => ?_⟩,
    fun i s t j k hs _ hk h => exec_slotByte_writer hs.capacity_le hk h⟩
  · rw [show 0x8000#16 = makeWord 0x8 0 from rfl, makeWord_or_ofNat _ hlen]
    exact decode_encode_pop hlen
  · rw [List.getElem?_append_left (by simpa using hk)]
    exact getElem?_memReadQ _ _ hk

@[simp] theorem live_answerA (s : State) (ok : Bool) : (s.answerA ok).live = s.live := rfl

@[simp] theorem live_answerS (s : State) (ok : Bool) (val : Option Nat) (data : List Byte) :
    (s.answerS ok val data).live = s.live := rfl

@[simp] theorem live_rewind (s : State) : s.rewind.live = s.live := rfl

/-- An answer that fills all `C` bytes has no free ones (R86). -/
theorem append_freeLanes_of_full {s : State} {data : List Byte} (h : data.length = s.cfg.c) :
    data ++ s.freeLanes data.length = data := by simp [State.freeLanes, h]

/-- From the invariant a `PUSH` with room and a legal length succeeds (R120). -/
theorem exec_push_of_room {s : State} {len : Nat} (hs : s.Inv) (hn : s.count < s.cfg.n) (hl : len ≤ s.cfg.c) :
    exec (.push len) s = .next ((s.append s.payload len).answerA true) :=
  exec_push_eq.mpr (.inr ⟨hn.ne, hl, hs.tail_lt, rfl⟩)

/-- From the invariant an `LF` below capacity, with room, pushes the line so far (R121). -/
theorem exec_lf_of_room {s : State} (hs : s.Inv) (hc : s.cursor < s.cfg.c) (hn : s.count < s.cfg.n) :
    exec (.rxb 0x0A) s = .next ((s.append (s.memReadF s.cursor) s.cursor).rewind.answerA true) := by
  have ho : s.rxOutcome 0x0A = .pushed := rxOutcome_eq.mpr ⟨hc, rfl, hn⟩
  exact exec_rxb_eq.mpr (.inr (.inr (.inl ⟨ho, hs.tail_lt, rfl⟩)))

/-- From the invariant a `POP` of a legal length on a queue that holds a record succeeds (R122). -/
theorem exec_pop_of_nonempty {s : State} {len : Nat} (hs : s.Inv) (hn : s.count ≠ 0) (hl : len ≤ s.cfg.c) :
    exec (.pop len) s = .next (s.dropOldest.answerS true none (memReadQ s.slot s.head len)) :=
  exec_pop_eq.mpr (.inr ⟨hn, hl, hs.head_lt, rfl⟩)

/-- The record of a payload lies within the capacity, whatever its length. -/
theorem live_append_payload {s : State} (hs : s.Inv) (hn : s.count < s.cfg.n) (len : Nat) :
    (s.append s.payload len).live = s.live ++ [pad s.cfg s.payload len] := live_append hs hn (by simp)

theorem live_append_line {s : State} (hs : s.Inv) (hn : s.count < s.cfg.n) :
    (s.append (s.memReadF s.cursor) s.cursor).live = s.live ++ [pad s.cfg (s.memReadF s.cursor) s.cursor] :=
  live_append hs hn (by simpa using hs.cursor_le)

/-! ### Status reads and what they guarantee -/

/-- Settles O24: `COUNT` only answers, with the count, which the invariant bounds. -/
theorem countAnswers : Obligations.CountAnswers := by
  refine ⟨rfl, fun s => ⟨_, exec_count_eq.mpr rfl, rfl, rfl⟩, fun s t hs h => ?_⟩
  rw [exec_count_eq.mp h]
  exact ⟨_, rfl, hs.count_le⟩

/-- Without a push that succeeds the occupancy never rises (R26). -/
theorem execAll_count_le_of_noPush {is : List Instr} {s t : State} (hp : NoPush is s)
    (h : execAll is s = .next t) : t.count ≤ s.count := by
  induction is generalizing s with
  | nil => cases h; exact le_rfl
  | cons i is ih =>
    obtain ⟨u, hu, h⟩ := execAll_cons_eq_next.mp h
    obtain ⟨hi, his⟩ := noPush_cons.mp hp
    exact (ih (his u hu) h).trans (count_le_of_not_pushes hi hu)

/-- Settles O25: `FULL` only answers; room stays while nothing is pushed, and the next push of either kind has it. -/
theorem fullAnswers : Obligations.FullAnswers := by
  refine ⟨rfl, fun s => ⟨_, exec_full_eq.mpr rfl, rfl, ?_⟩, fun s hs h1 => ?_, fun is s t hs hn hp h => ?_⟩
  · simp [bitVal, State.full]
  · have := hs.count_le
    omega
  · have ht : t.Inv := execAll_keeps_inv hs h
    have hcfg : t.cfg = s.cfg := execAll_cfg h
    have hroom : t.count < t.cfg.n := by
      rw [hcfg]
      exact (execAll_count_le_of_noPush hp h).trans_lt (hs.count_le.lt_of_ne hn)
    refine ⟨fun len hl => ⟨_, exec_push_of_room ht hroom (hcfg ▸ hl), rfl, ?_⟩,
      fun hc => ⟨_, exec_lf_of_room ht hc hroom, ?_⟩⟩
    · rw [live_answerA, live_append_payload ht hroom]
    · rw [live_answerA, live_rewind, live_append_line ht hroom]

/-- Only `RSTALL` and a `POP` that succeeds take from the occupancy (R26). -/
theorem count_ge_of_not_removes {i : Instr} {s t : State} (hr : i ≠ .rstall) (hp : ¬ s.Pops i)
    (h : exec i s = .next t) : s.count ≤ t.count := by
  by_cases hpush : s.Pushes i
  · rw [exec_count_of_pushes h hpush]; exact Nat.le_succ _
  · exact (exec_count_of_not_moves h hr hpush hp).ge

/-- Without `RSTALL` and without a `POP` of legal length the occupancy never falls (R26). -/
theorem execAll_count_ge {is : List Instr} {s t : State}
    (his : ∀ i ∈ is, i ≠ .rstall ∧ ∀ k, i = .pop k → s.cfg.c < k) (h : execAll is s = .next t) :
    s.count ≤ t.count := by
  induction is generalizing s with
  | nil => cases h; exact le_rfl
  | cons i is ih =>
    obtain ⟨u, hu, h⟩ := execAll_cons_eq_next.mp h
    obtain ⟨⟨hr, hlong⟩, his⟩ := List.forall_mem_cons.mp his
    have hp : ¬ s.Pops i := fun ⟨k, hi, _, hk⟩ => (hlong k hi).not_ge hk
    exact (count_ge_of_not_removes hr hp hu).trans (ih (exec_cfg hu ▸ his) h)

/-- Settles O26: `EMPTY` only answers; a record stays until it is removed, and `POP C` then finds it. -/
theorem emptyAnswers : Obligations.EmptyAnswers := by
  refine ⟨rfl, fun s => ⟨_, exec_empty_eq.mpr rfl, rfl, ?_⟩, fun is s t hs hn his h => ?_⟩
  · simp [bitVal, State.empty]
  · have hne : t.count ≠ 0 := by
      have := execAll_count_ge his h
      omega
    exact ⟨_, _, exec_pop_of_nonempty (execAll_keeps_inv hs h) hne (execAll_cfg h ▸ le_rfl), rfl, rfl⟩

/-! ### `RSTALL` -/

/-- Settles O27: `RSTALL` empties the queue and leaves the framer, whose line the next `LF` then pushes. -/
theorem rstallMeaning : Obligations.RstallMeaning := by
  refine ⟨rfl, fun s => ⟨_, _, exec_rstall_eq.mpr rfl, rfl, fun i k => slotByte_clearQueue s,
    fun x => read_clearQueue_outside s, rfl⟩, fun s hs hc => ?_⟩
  have hr : exec .rstall s = .next (s.clearQueue.answerS true none []) := exec_rstall_eq.mpr rfl
  have hu := exec_keeps_inv hs hr
  have hroom : 0 < s.cfg.n := hs.slots_pos
  refine ⟨_, by rw [execAll_cons hr, execAll_cons (exec_lf_of_room hu hc hroom)]; rfl, ?_, rfl⟩
  rw [live_answerA, live_rewind, live_append_line hu hroom]
  rfl

/-! ### The queue's order, on requests presented on the ports -/

theorem runSteps_add {m n : Nat} {s t : State} (h : runSteps m s = .next t) : runSteps (m + n) s = runSteps n t := by
  induction m generalizing s with
  | zero => cases h; rw [Nat.zero_add]
  | succ m ih =>
    obtain ⟨u, hu, h⟩ := runSteps_succ_eq_next.mp h
    rw [Nat.add_right_comm, runSteps_of_step _ hu, ih h]

/-- The producer's request to push the first `r.1` bytes of the payload `r.2`. -/
def pushRequest (r : Nat × Nat) : Input := .async (requestA (.push r.1) r.2) []

/-- The record that `pushRequest r` presents, as the queue holds it (R128). -/
def pushedRecord (p : Params) (r : Nat × Nat) : List Byte := pad p (recordOf p r.2) r.1

/-- A step that takes a `PUSH` with room appends its record and answers nothing on the S-port. -/
theorem step_push_appends {s : State} {r : Nat × Nat} {rest : List Input} (hs : s.Inv) (hn : s.count < s.cfg.n)
    (hl : r.1 ≤ s.cfg.c) (hin : s.inputs = pushRequest r :: rest) :
    ∃ t, step s = .next t ∧ t.Inv ∧ t.cfg = s.cfg ∧ t.inputs = rest ∧ t.sOut = s.sOut ∧ t.count = s.count + 1 ∧
      t.live = s.live ++ [pushedRecord s.cfg r] := by
  have hcap := hs.capacity_le
  have hv : State.Inv { s with inputs := rest, aWdata := r.2 } := hs
  have hexec := exec_push_of_room hv hn hl
  refine ⟨_, (step_of_nextRequest (nextRequest_async_last hin) (decode_encode_push (by omega))).trans hexec,
    exec_keeps_inv hv hexec, rfl, rfl, rfl, rfl, ?_⟩
  rw [live_answerA, live_append_payload hv hn]
  rfl

/-- Steps that take one `PUSH` after another, with room for all, append their records in order. -/
theorem runSteps_pushes_append {rs : List (Nat × Nat)} {s : State} {rest : List Input} (hs : s.Inv)
    (hn : s.count + rs.length ≤ s.cfg.n) (hl : ∀ r ∈ rs, r.1 ≤ s.cfg.c)
    (hin : s.inputs = rs.map pushRequest ++ rest) :
    ∃ t, runSteps rs.length s = .next t ∧ t.Inv ∧ t.cfg = s.cfg ∧ t.inputs = rest ∧ t.sOut = s.sOut ∧
      t.live = s.live ++ rs.map (pushedRecord s.cfg) := by
  induction rs generalizing s with
  | nil => exact ⟨s, rfl, hs, rfl, hin, rfl, by simp⟩
  | cons r rs ih =>
    obtain ⟨hr, hrs⟩ := List.forall_mem_cons.mp hl
    rw [List.length_cons] at hn
    obtain ⟨u, hu, huinv, hucfg, huin, huout, hucount, hulive⟩ := step_push_appends hs (by omega) hr hin
    obtain ⟨t, ht, htinv, htcfg, htin, htout, htlive⟩ := ih huinv (by rw [hucfg]; omega) (hucfg ▸ hrs) huin
    refine ⟨t, (runSteps_of_step _ hu).trans ht, htinv, htcfg.trans hucfg, htin, htout.trans huout, ?_⟩
    rw [htlive, hulive, hucfg]
    simp

/-- A step that takes a `POP C` answers the oldest record and removes it. -/
theorem step_pop_answers_oldest {s : State} {x : List Byte} {xs : List (List Byte)} {rest : List Input} (hs : s.Inv)
    (hlive : s.live = x :: xs) (hin : s.inputs = requestS (.pop s.cfg.c) :: rest) :
    ∃ t a, step s = .next t ∧ t.Inv ∧ t.cfg = s.cfg ∧ t.inputs = rest ∧ t.sOut = a :: s.sOut ∧ t.live = xs ∧
      a.ok = true ∧ a.data = x := by
  have hcap := hs.capacity_le
  have hn : s.count ≠ 0 := by rw [← length_live, hlive]; simp
  have hv : State.Inv { s with inputs := rest } := hs
  have hexec := exec_pop_of_nonempty hv hn le_rfl
  have holdest := (live_dropOldest hs hn).symm.trans hlive
  obtain ⟨hx, hxs⟩ := List.cons.inj holdest
  exact ⟨_, _, (step_of_nextRequest (nextRequest_sync hin) (decode_encode_pop (by omega))).trans hexec,
    exec_keeps_inv hv hexec, rfl, rfl, rfl, hxs, rfl,
    (append_freeLanes_of_full (length_memReadQ ..)).trans hx⟩

/-- Steps that take one `POP C` after another answer the queue's records in its order, oldest first. -/
theorem runSteps_pops_answer {xs : List (List Byte)} {s : State} {rest : List Input} (hs : s.Inv)
    (hlive : s.live = xs) (hin : s.inputs = List.replicate xs.length (requestS (.pop s.cfg.c)) ++ rest) :
    ∃ (t : State) (as : List SAnswer), runSteps xs.length s = .next t ∧ t.sOut = as.reverse ++ s.sOut ∧
      (∀ a ∈ as, a.ok = true) ∧ as.map SAnswer.data = xs := by
  induction xs generalizing s with
  | nil => exact ⟨s, [], rfl, rfl, nofun, rfl⟩
  | cons x xs ih =>
    obtain ⟨u, a, hu, huinv, hucfg, huin, huout, hulive, hok, hdata⟩ := step_pop_answers_oldest hs hlive hin
    obtain ⟨t, as, ht, htout, hoks, hdatas⟩ := ih huinv hulive (hucfg ▸ huin)
    refine ⟨t, a :: as, (runSteps_of_step _ hu).trans ht, ?_, List.forall_mem_cons.mpr ⟨hok, hoks⟩,
      by rw [List.map_cons, hdata, hdatas]⟩
    rw [htout, huout]
    simp

/-- FIFO order: records presented to an empty queue that holds them all, and then as many `POP C`, are answered in
the order they were presented (R129). -/
theorem runSteps_fifo {rs : List (Nat × Nat)} {s : State} {rest : List Input} (hs : s.Inv) (hempty : s.count = 0)
    (hn : rs.length ≤ s.cfg.n) (hl : ∀ r ∈ rs, r.1 ≤ s.cfg.c)
    (hin : s.inputs = rs.map pushRequest ++ (List.replicate rs.length (requestS (.pop s.cfg.c)) ++ rest)) :
    ∃ (t : State) (as : List SAnswer), runSteps (rs.length + rs.length) s = .next t ∧ t.sOut = as.reverse ++ s.sOut ∧
      (∀ a ∈ as, a.ok = true) ∧ as.map SAnswer.data = rs.map (pushedRecord s.cfg) := by
  obtain ⟨u, hu, huinv, hucfg, huin, huout, hulive⟩ := runSteps_pushes_append hs (by omega) hl hin
  have hnil : s.live = [] := List.eq_nil_of_length_eq_zero (by rw [length_live, hempty])
  rw [hnil, List.nil_append] at hulive
  obtain ⟨t, as, ht, htout, hoks, hdatas⟩ :=
    runSteps_pops_answer (rest := rest) huinv hulive (by rw [huin, hucfg, List.length_map])
  rw [List.length_map] at ht
  exact ⟨t, as, (runSteps_add hu).trans ht, by rw [htout, huout], hoks, hdatas⟩

/-- A byte of a padded payload: a lane below `len`, `SENT` from there to the capacity (R128). -/
theorem getElem?_pushedRecord (p : Params) {len : Nat} (w : Nat) (hl : len ≤ p.c) {k : Nat} (hk : k < p.c) :
    (pushedRecord p (len, w))[k]? = some (if k < len then byteLane w k else Config.sent) := by
  have hlen : ((recordOf p w).take len).length = len := by simpa using hl
  show (pad p (recordOf p w) len)[k]? = _
  rw [pad, hlen]
  by_cases h : k < len
  · rw [List.getElem?_append_left (by omega), getElem?_take_recordOf p w hl, if_pos h, if_pos h]
  · rw [List.getElem?_append_right (by omega), hlen, if_neg h, List.getElem?_replicate_of_lt (by omega)]

/-- Settles O33: the bound is the invariant's, a failure is one answer, and both runs are cases of `runSteps_fifo`. -/
theorem queueTestableProperties : Obligations.QueueTestableProperties := by
  refine ⟨fun is s t hs h => ?_, fun len s t hfull h => ?_, fun len s t hempty h => ?_,
    fun s l₁ l₂ l₃ w₁ w₂ w₃ rest hs hempty hn h₁ h₂ h₃ hin => ?_, fun s len w rest hs hempty hl hin => ?_⟩
  · exact (execAll_keeps_inv hs h).count_le
  · obtain rfl := Host.Outcome.next.inj ((exec_push_eq.mpr (.inl ⟨.inl hfull, rfl⟩)).symm.trans h)
    exact ⟨rfl, sameBlock_answerA ..⟩
  · obtain rfl := Host.Outcome.next.inj ((exec_pop_eq.mpr (.inl ⟨.inl hempty, rfl⟩)).symm.trans h)
    exact ⟨rfl, sameBlock_answerS ..⟩
  · obtain ⟨t, as, ht, hout, hoks, hdatas⟩ :=
      runSteps_fifo (rs := [(l₁, w₁), (l₂, w₂), (l₃, w₃)]) hs hempty hn (by simp [h₁, h₂, h₃]) hin
    simp only [List.map_cons, List.map_nil, List.map_eq_cons_iff, List.map_eq_nil_iff] at hdatas
    obtain ⟨a₁, _, rfl, hd₁, a₂, _, rfl, hd₂, a₃, _, rfl, hd₃, rfl⟩ := hdatas
    exact ⟨t, a₁, a₂, a₃, ht, hout, hoks a₁ (by simp), hoks a₂ (by simp), hoks a₃ (by simp), hd₁, hd₂, hd₃⟩
  · obtain ⟨t, as, ht, hout, hoks, hdatas⟩ :=
      runSteps_fifo (rs := [(len, w)]) hs hempty hs.slots_pos (by simpa using hl) hin
    simp only [List.map_cons, List.map_nil, List.map_eq_cons_iff, List.map_eq_nil_iff] at hdatas
    obtain ⟨a, _, rfl, hdata, rfl⟩ := hdatas
    refine ⟨t, a, ht, hout, hoks a (by simp), fun k hk => ?_, fun k hk hkc => ?_⟩
    · rw [hdata, getElem?_pushedRecord _ _ hl (hk.trans_le hl), if_pos hk]
    · rw [hdata, getElem?_pushedRecord _ _ hl hkc, if_neg hk.not_gt]; rfl

end Sys2Proof.Machine
end

section
/-! The framer's operation (spec/42_framer.md): the command word of `RXB`, and what each of the five outcomes of R141
does (R140). -/

namespace Sys2Proof

/-- The byte of `RXB` read as a 12-bit operand leaves the must-be-zero bits of `arg` 0 (R83). -/
theorem setWidth_byte_and_mustBeZero (b : Byte) : b.setWidth 12 &&& 0xF00#12 = 0#12 := by
  rw [show 0xF00#12 = 0xF#4 ++ 0#8 from rfl, BitVec.setWidth_eq_append (by omega), BitVec.cast_eq, BitVec.and_append]
  simp

theorem decode_encode_rxb (b : Byte) : decode .A (Instr.rxb b).encode = .ok (.rxb b) := by
  have hbyte : (b.setWidth 12).extractLsb' 0 8 = b := by
    rw [← BitVec.setWidth_eq_extractLsb' (by omega), BitVec.setWidth_setWidth_of_le _ (by omega), BitVec.setWidth_eq]
  simp [Instr.encode, decode_makeWord, setWidth_byte_and_mustBeZero, hbyte]

/-- The word of `RXB` is its code with the byte put in (R83). -/
theorem encode_rxb_eq_or (b : Byte) : (Instr.rxb b).encode = 0x2000#16 ||| b.setWidth 16 := by
  have hlt : b.toNat < 4096 := b.isLt.trans (by decide)
  rw [Instr.encode, ← BitVec.ofNat_toNat, ← BitVec.ofNat_toNat, ← makeWord_or_ofNat 0x2 hlt]
  rfl

end Sys2Proof

namespace Sys2Proof.Machine

/-- A byte of the slot a completed line fills: the framer's byte below the cursor, then `SENT` (R121, R140). -/
theorem slotByte_append_line (s : State) {k : Nat} (hk : k < s.cfg.c) :
    (s.append (s.memReadF s.cursor) s.cursor).slotByte s.tail k =
      if k < s.cursor then s.fbufByte k else Config.sent := by
  rw [slotByte_append_tail s _ _ hk, List.take_of_length_le (by simp)]
  split
  · next h => simp [State.memReadF, Memory.readBytes, State.fbufByte, h]
  · next h => exact List.getD_eq_default _ _ (by simpa using h)

/-- A stored byte is the framer's byte at the cursor (R140 step 4). -/
theorem fbufByte_storeByte_cursor (s : State) (b : Byte) : (s.storeByte b).fbufByte s.cursor = b := by
  rw [State.fbufByte, State.storeByte_fbuf, Memory.read_write, if_pos rfl]

/-- A store leaves every byte of the framer's buffer but the one at the cursor (R140 step 4). -/
theorem read_storeByte_other (s : State) (b : Byte) {a : Nat} (ha : a ≠ s.cursor) :
    Memory.read (s.storeByte b).fbuf a = Memory.read s.fbuf a := by
  rw [State.storeByte_fbuf, Memory.read_write, if_neg ha.symm]

/-- Settles O36: each test of the chain names an outcome of `rxOutcome_eq`, and each outcome is a case of
`exec_rxb_eq`; a completed line is an append of the framer's bytes below the cursor. -/
theorem rxbMeaning : Obligations.RxbMeaning := by
  refine ⟨fun b => encode_rxb_eq_or b ▸ decode_encode_rxb b, fun b s => ?_⟩
  split_ifs with hover hcr hlf hroom
  · exact exec_rxb_eq.mpr (.inl ⟨rxOutcome_eq.mpr hover, rfl⟩)
  · exact exec_rxb_eq.mpr (.inr (.inl ⟨rxOutcome_eq.mpr ⟨not_le.mp hover, hcr⟩, rfl⟩))
  · intro htail
    have hc : s.cursor < s.cfg.c := not_le.mp hover
    have ho : s.rxOutcome b = .pushed := rxOutcome_eq.mpr ⟨hc, hlf, hroom⟩
    exact ⟨_, exec_rxb_eq.mpr (.inr (.inr (.inl ⟨ho, htail, rfl⟩))),
      fun k hk => (slotByte_append_line s (hk.trans hc)).trans (if_pos hk),
      fun k hk hkc => (slotByte_append_line s hkc).trans (if_neg hk.not_gt),
      fun a ha => read_append_outside s (by simpa using hc.le) ha, rfl⟩
  · have ho : s.rxOutcome b = .dropped := rxOutcome_eq.mpr ⟨not_le.mp hover, hlf, not_lt.mp hroom⟩
    exact exec_rxb_eq.mpr (.inr (.inr (.inr (.inl ⟨ho, rfl⟩))))
  · have ho : s.rxOutcome b = .store := rxOutcome_eq.mpr ⟨not_le.mp hover, hcr, hlf⟩
    exact ⟨_, exec_rxb_eq.mpr (.inr (.inr (.inr (.inr ⟨ho, rfl⟩)))), fbufByte_storeByte_cursor s b,
      fun _ => read_storeByte_other s b, rfl⟩

end Sys2Proof.Machine
end

section
/-! The state after reset (spec/70_reset_and_hazards.md, R191): the queue is empty and the framer idle. -/

namespace Sys2Proof.Machine

/-- After reset the queue is empty (R30, R191). -/
@[simp] theorem empty_resetWith (p : Params) : (State.resetWith p).empty = true := rfl

/-- After reset the queue is not full, for it has at least one slot (R6, R30, R191). -/
theorem full_resetWith {p : Params} (hn : 1 ≤ p.n) : (State.resetWith p).full = false :=
  beq_false_of_ne (Nat.ne_of_lt hn)

/-- Settles O40: each status read answers from `empty`, `full` or `count` of the reset state, and both byte spaces
start with no byte listed. -/
theorem resetLeaves : Obligations.ResetLeaves := by
  rintro p ⟨hn, -⟩
  have hempty : bitVal (State.resetWith p).empty = 1 := by rw [empty_resetWith]; rfl
  have hfull : bitVal (State.resetWith p).full = 0 := by rw [full_resetWith hn]; rfl
  exact ⟨rfl, rfl, rfl, rfl, rfl, fun i j => Memory.read_nil (slotAddr i j), Memory.read_nil,
    ⟨_, _, exec_empty_eq.mpr rfl, rfl, hempty⟩, ⟨_, _, exec_full_eq.mpr rfl, rfl, hfull⟩,
    ⟨_, _, exec_count_eq.mpr rfl, rfl, rfl⟩, (Nat.zero_mod p.n).symm⟩

end Sys2Proof.Machine
end

section
/-! The command word (spec/30_encoding.md): the rows of the opcode map are disjoint, so decoding is the search of R88;
each legal word is the word of one operation, and the other words are those of R87. -/

namespace Sys2Proof

/-! ### The opcode map -/

/-- Two rows that agree where both masks look are one row (R83). -/
theorem opcodeMap_agree :
    ∀ r ∈ opcodeMap, ∀ r' ∈ opcodeMap, r.pattern &&& r'.mask = r'.pattern &&& r.mask → r = r' := by decide

/-- No word matches two rows (R83). -/
theorem opcodeMap_disjoint {w : Word} {r r' : Row} (hr : r ∈ opcodeMap) (hr' : r' ∈ opcodeMap)
    (h : w &&& r.mask = r.pattern) (h' : w &&& r'.mask = r'.pattern) : r = r' := by
  refine opcodeMap_agree r hr r' hr' ?_
  rw [← h, ← h', BitVec.and_assoc, BitVec.and_assoc, BitVec.and_comm r.mask]

theorem selects_iff {r : Row} {w : Word} : r.selects w = true ↔ w &&& r.mask = r.pattern := by
  simp [Row.selects]

/-- The search answers the row that matches (R88). -/
theorem find?_opcodeMap_of_mem {w : Word} {r : Row} (hr : r ∈ opcodeMap) (h : w &&& r.mask = r.pattern) :
    opcodeMap.find? (fun r => r.selects w) = some r := by
  cases hfind : opcodeMap.find? (fun r => r.selects w) with
  | none => exact absurd (selects_iff.mpr h) (List.find?_eq_none.mp hfind r hr)
  | some r' =>
    have hsel : r'.selects w = true := List.find?_some (p := fun r : Row => r.selects w) hfind
    rw [opcodeMap_disjoint (List.mem_of_find?_eq_some hfind) hr (selects_iff.mp hsel) h]

/-- A word decodes exactly to what the row of its port that it matches assembles from it (R88). -/
theorem decode_eq_ok {p : Port} {w : Word} {i : Instr} :
    decode p w = .ok i ↔ ∃ r ∈ opcodeMap, w &&& r.mask = r.pattern ∧ r.port = p ∧ r.op.assemble w = i := by
  constructor
  · intro h
    unfold decode at h
    split at h
    · next r hfind =>
      have hsel : r.selects w = true := List.find?_some (p := fun r : Row => r.selects w) hfind
      split at h
      · next hport =>
        exact ⟨r, List.mem_of_find?_eq_some hfind, selects_iff.mp hsel, hport, Except.ok.inj h⟩
      · cases h
    · split at h <;> cases h
  · rintro ⟨r, hr, h, hport, hi⟩
    simp [decode, find?_opcodeMap_of_mem hr h, hport, hi]

/-- What does not decode is illegal. -/
theorem exists_illegal_iff {p : Port} {w : Word} :
    (∃ e, decode p w = .error e) ↔ ∀ i, decode p w ≠ .ok i := by
  cases decode p w <;> simp

/-- Settles O4: the search finds the one row that matches (`decode_eq_ok`), and finds none where no row of the port
matches. -/
theorem decodingProcedure : Obligations.DecodingProcedure := by
  refine ⟨fun p w i => decode_eq_ok, fun p w hno => ?_, fun w r hr r' hr' => opcodeMap_disjoint hr hr', fun p => ?_⟩
  · refine exists_illegal_iff.mpr fun i h => hno ?_
    obtain ⟨r, hr, hmatch, hport, -⟩ := decode_eq_ok.mp h
    exact ⟨r, hr, hmatch, hport⟩
  · exact ⟨⟨.reservedCode, by cases p <;> rfl⟩, ⟨.reservedCode, by cases p <;> rfl⟩⟩

/-! ### Encoding and decoding -/

/-- The word of a well-formed operation is legal on its own port alone (R80, R87 (c)). -/
theorem decode_encode {i : Instr} (hi : i.wellFormed = true) (p : Port) :
    decode p i.encode = if p = i.port then .ok i else .error .wrongPort := by
  cases i with
  | rxb b =>
    cases p with
    | A => exact decode_encode_rxb b
    | S => simp [Instr.encode, Instr.port, decode_makeWord, setWidth_byte_and_mustBeZero]
  | push len | pop len | rstitem len =>
    have hlen : len < 4096 := of_decide_eq_true hi
    cases p <;> simp [Instr.encode, Instr.port, decode_makeWord, Nat.mod_eq_of_lt hlen]
  | tick | count | full | empty | rstall | rdtick => cases p <;> rfl

theorem decode_encode_of_port {i : Instr} (hi : i.wellFormed = true) {p : Port} (hp : i.port = p) :
    decode p i.encode = .ok i := (decode_encode hi p).trans (if_pos hp.symm)

/-- Settles O2: both cases of the test on the port in `decode_encode`. -/
theorem decodeOfEncode : Obligations.DecodeOfEncode :=
  fun _ hi => ⟨decode_encode_of_port hi rfl, fun p hp => (decode_encode hi p).trans (if_neg hp)⟩

/-- An `arg` is its must-be-zero bits of `RXB` and its byte (R83, R84). -/
theorem arg_eq_append (arg : BitVec 12) : arg = arg.extractLsb' 8 4 ++ arg.extractLsb' 0 8 := by
  rw [BitVec.extractLsb'_append_extractLsb'_eq_extractLsb' (by omega)]
  simp

/-- The mask of `RXB` tests bits 11 to 8 of its word (R83). -/
theorem and_mustBeZero_eq_zero_iff {arg : BitVec 12} : arg &&& 0xF00#12 = 0#12 ↔ arg.extractLsb' 8 4 = 0#4 := by
  have hand : arg &&& 0xF00#12 = arg.extractLsb' 8 4 ++ 0#8 := by
    conv_lhs => rw [arg_eq_append arg]
    rw [show 0xF00#12 = BitVec.allOnes 4 ++ 0#8 from rfl, BitVec.and_append, BitVec.and_allOnes, BitVec.and_zero]
  rw [hand]
  constructor
  · intro h
    exact BitVec.extractLsb'_append_eq_left.symm.trans (congrArg (BitVec.extractLsb' 8 4) h)
  · intro h
    rw [h]; rfl

/-- An `arg` whose must-be-zero bits are 0 is its byte, read as 12 bits (R83, R84). -/
theorem setWidth_byte_of_mustBeZero {arg : BitVec 12} (h : arg &&& 0xF00#12 = 0#12) :
    (arg.extractLsb' 0 8).setWidth 12 = arg := by
  conv_rhs => rw [arg_eq_append arg, and_mustBeZero_eq_zero_iff.mp h]
  rw [BitVec.setWidth_eq_append (by omega)]
  rfl

/-- Every operand is a field of the word, so it fits its field (R84). -/
theorem wellFormed_assemble (op : Op) (w : Word) : (op.assemble w).wellFormed = true := by
  have harg : (argField w).toNat < 4096 := (argField w).isLt
  cases op with
  | push | pop | rstitem => exact decide_eq_true harg
  | _ => rfl

/-- A row is of the port of its operation (R80, R83). -/
theorem port_assemble {r : Row} (hr : r ∈ opcodeMap) (w : Word) : (r.op.assemble w).port = r.port := by
  have hrows : ∀ r ∈ opcodeMap, (r.op.assemble w).port = r.port := by
    simp [opcodeMap, Op.assemble, Instr.port]
  exact hrows r hr

/-- Every mask covers the code, so a word that matches has the row's (R83). -/
theorem matches_makeWord_iff {w : Word} {po : BitVec 4} {mask pa : BitVec 12} :
    w &&& makeWord 0xF mask = makeWord po pa ↔ opField w = po ∧ argField w &&& mask = pa := by
  conv_lhs => rw [← makeWord_fields w]
  rw [makeWord_and, makeWord_inj, show (0xF : BitVec 4) = BitVec.allOnes 4 from rfl, BitVec.and_allOnes]

/-- A word that matches under the full mask is the row's pattern. -/
theorem makeWord_of_fixed {w : Word} {po : BitVec 4} {pa : BitVec 12}
    (h : w &&& makeWord 0xF 0xFFF = makeWord po pa) : makeWord po pa = w := h.symm.trans BitVec.and_allOnes

/-- A word whose `arg` the mask leaves free is its code and its `arg`. -/
theorem makeWord_of_length {w : Word} {po : BitVec 4} {pa : BitVec 12}
    (h : w &&& makeWord 0xF 0 = makeWord po pa) : makeWord po (BitVec.ofNat 12 (argField w).toNat) = w := by
  obtain ⟨hop, -⟩ := matches_makeWord_iff.mp h
  rw [BitVec.ofNat_toNat, BitVec.setWidth_eq, ← hop, makeWord_fields]

/-- A word whose `arg` the mask leaves free in its byte is its code and its byte. -/
theorem makeWord_of_byte {w : Word} {po : BitVec 4} (h : w &&& makeWord 0xF 0xF00 = makeWord po 0) :
    makeWord po ((byteField w).setWidth 12) = w := by
  obtain ⟨hop, hmask⟩ := matches_makeWord_iff.mp h
  have hbyte : byteField w = (argField w).extractLsb' 0 8 := by
    conv_lhs => rw [← makeWord_fields w]
    exact byteField_makeWord ..
  rw [hbyte, setWidth_byte_of_mustBeZero hmask, ← hop, makeWord_fields]

/-- A word that matches a row is the word of the operation assembled from it: the bits under the mask are the row's,
the others are the operand (R83, R84). -/
theorem encode_assemble {r : Row} (hr : r ∈ opcodeMap) {w : Word} (h : w &&& r.mask = r.pattern) :
    (r.op.assemble w).encode = w := by
  rw [opcodeMap_fields] at hr
  simp only [List.mem_cons, List.not_mem_nil, or_false] at hr
  rcases hr with rfl | rfl | rfl | rfl | rfl | rfl | rfl | rfl | rfl | rfl
  · exact makeWord_of_fixed h
  · exact makeWord_of_byte h
  · exact makeWord_of_length h
  · exact makeWord_of_length h
  · exact makeWord_of_fixed h
  · exact makeWord_of_fixed h
  · exact makeWord_of_fixed h
  · exact makeWord_of_fixed h
  · exact makeWord_of_length h
  · exact makeWord_of_fixed h

/-- Settles O3: the three facts of the row a word that decodes has matched (`decode_eq_ok`). -/
theorem encodeOfDecode : Obligations.EncodeOfDecode := by
  intro p w i h
  obtain ⟨r, hr, hmatch, hport, rfl⟩ := decode_eq_ok.mp h
  exact ⟨wellFormed_assemble .., (port_assemble hr w).trans hport, encode_assemble hr hmatch⟩

/-- Bit 15 of the word of every operation names its port (R83). -/
theorem portOf_encode (i : Instr) : portOf i.encode = i.port := by
  cases i <;> exact Laws.EncodedPortBit.portOf_makeWord ..

/-- Settles O6: the word is that of its operation, whose bit 15 names its port. -/
theorem bitFifteenNamesThePort : Obligations.BitFifteenNamesThePort := by
  intro p w i h
  obtain ⟨-, rfl, rfl⟩ := encodeOfDecode p w i h
  rw [← portOf_encode i, portOf]
  cases i.encode.msb <;> simp

/-! ### Illegal words -/

theorem exists_error_ite {c : Prop} [Decidable c] {x y : Except Illegal Instr} :
    (∃ e, (if c then x else y) = .error e) ↔ (c ∧ ∃ e, x = .error e) ∨ (¬ c ∧ ∃ e, y = .error e) := by
  by_cases hc : c <;> simp [hc]

/-- Settles O5: the sixteen codes, each by its line of `decode_makeWord`. -/
theorem illegalExactlyByTheThreeConditions : Obligations.IllegalExactlyByTheThreeConditions := by
  intro p w
  obtain ⟨op, arg, rfl⟩ : ∃ op arg, w = makeWord op arg := ⟨_, _, (makeWord_fields w).symm⟩
  have hmask : arg.extractLsb' 8 4 = 0 ↔ arg &&& 0xF00 = 0 := and_mustBeZero_eq_zero_iff.symm
  rw [opField_makeWord, argField_makeWord, decode_makeWord, ne_eq (arg.extractLsb' 8 4), hmask]
  rcases opField_cases op with rfl | rfl | rfl | rfl | rfl | rfl | rfl | rfl | rfl | rfl | rfl | rfl | rfl | rfl |
    rfl | rfl <;> cases p <;> simp [exists_error_ite, Classical.em]

/-- Settles O1: each word by running the decoder. -/
theorem tableWordsDecode : Obligations.TableWordsDecode := by
  unfold Obligations.TableWordsDecode
  decide

end Sys2Proof
end

section
/-! What every operation keeps: it completes from the invariant (R156), it leaves what its port leaves alone (R67), only
`RXB` moves the framer (R22), and a slot's bytes have the writers of R21. -/

namespace Sys2Proof.Machine

/-! ### Completion -/

/-- An append refuses nothing, and faults only at a `tail` outside space Q (R10). -/
theorem queueAppend_ne_refused (rec : List Byte) (len : Nat) (s : State) (r : Refusal) :
    queueAppend rec len s ≠ .refused r := by
  unfold queueAppend
  split <;> simp

theorem onNext_eq_refused {f : State → State} {o : Host.Outcome State Fault Refusal} {r : Refusal} :
    onNext f o = .refused r ↔ o = .refused r := by
  cases o <;> simp [onNext]

/-- Settles O57: each arm ends in a next state or in an append, which refuses nothing. -/
theorem noOperationIsRefused : Obligations.NoOperationIsRefused := by
  intro i s r h
  cases i with
  | rxb b =>
    rw [show exec (.rxb b) s = execRxb b s from rfl, execRxb] at h
    cases ho : s.rxOutcome b <;> rw [ho] at h
    case pushed => exact queueAppend_ne_refused _ _ _ _ (onNext_eq_refused.mp h)
    all_goals cases h
  | push len =>
    rw [show exec (.push len) s = execPush len s from rfl, execPush] at h
    split at h
    · cases h
    · exact queueAppend_ne_refused _ _ _ _ (onNext_eq_refused.mp h)
  | pop len =>
    rw [show exec (.pop len) s = execPop len s from rfl, execPop] at h
    split_ifs at h
  | rstitem k =>
    rw [show exec (.rstitem k) s = execRstitem k s from rfl, execRstitem] at h
    split_ifs at h
  | tick | count | full | empty | rstall | rdtick => cases h

/-- With `head` and `tail` in space Q every operation completes (R131, R156). -/
theorem exec_completes (i : Instr) {s : State} (hh : s.head < s.cfg.n) (ht : s.tail < s.cfg.n) :
    ∃ t, exec i s = .next t := by
  cases i with
  | tick => exact ⟨_, exec_tick_eq.mpr rfl⟩
  | rxb b =>
    cases ho : s.rxOutcome b with
    | overflow => exact ⟨_, exec_rxb_eq.mpr (.inl ⟨ho, rfl⟩)⟩
    | ignore => exact ⟨_, exec_rxb_eq.mpr (.inr (.inl ⟨ho, rfl⟩))⟩
    | pushed => exact ⟨_, exec_rxb_eq.mpr (.inr (.inr (.inl ⟨ho, ht, rfl⟩)))⟩
    | dropped => exact ⟨_, exec_rxb_eq.mpr (.inr (.inr (.inr (.inl ⟨ho, rfl⟩))))⟩
    | store => exact ⟨_, exec_rxb_eq.mpr (.inr (.inr (.inr (.inr ⟨ho, rfl⟩))))⟩
  | push len =>
    by_cases hf : s.count = s.cfg.n ∨ s.cfg.c < len
    · exact ⟨_, exec_push_eq.mpr (.inl ⟨hf, rfl⟩)⟩
    · obtain ⟨hn, hl⟩ := not_or.mp hf
      exact ⟨_, exec_push_eq.mpr (.inr ⟨hn, not_lt.mp hl, ht, rfl⟩)⟩
  | pop len =>
    by_cases hf : s.count = 0 ∨ s.cfg.c < len
    · exact ⟨_, exec_pop_eq.mpr (.inl ⟨hf, rfl⟩)⟩
    · obtain ⟨hn, hl⟩ := not_or.mp hf
      exact ⟨_, exec_pop_eq.mpr (.inr ⟨hn, not_lt.mp hl, hh, rfl⟩)⟩
  | count => exact ⟨_, exec_count_eq.mpr rfl⟩
  | full => exact ⟨_, exec_full_eq.mpr rfl⟩
  | empty => exact ⟨_, exec_empty_eq.mpr rfl⟩
  | rstall => exact ⟨_, exec_rstall_eq.mpr rfl⟩
  | rstitem k =>
    rcases Nat.lt_or_ge k s.cfg.n with hk | hk
    · exact ⟨_, exec_rstitem_eq.mpr (.inr ⟨hk, rfl⟩)⟩
    · exact ⟨_, exec_rstitem_eq.mpr (.inl ⟨hk, rfl⟩)⟩
  | rdtick => exact ⟨_, exec_rdtick_eq.mpr rfl⟩

/-- Settles O43: the invariant puts `head` and `tail` in space Q, and what completes keeps it. -/
theorem everyOperationCompletes : Obligations.EveryOperationCompletes := by
  intro i s hs
  obtain ⟨t, h⟩ := exec_completes i hs.head_lt hs.tail_lt
  exact ⟨t, h, exec_keeps_inv hs h⟩

/-! ### What an operation answers and leaves alone -/

theorem bitVal_le_one (b : Bool) : bitVal b ≤ 1 := by cases b <;> decide

/-- `Answers s i u t`: `t` is `u` with one answer on the port of `i` (R86). What an S-port answer sets of `val` is the
tick, the count or a bit of `s`, and it sets at most `C` bytes of `data`. -/
inductive Answers (s : State) (i : Instr) (u : State) : State → Prop
  | onA (hp : i.port = .A) (ok : Bool) : Answers s i u (u.answerA ok)
  | onS (hp : i.port = .S) (ok : Bool) {val : Option Nat} {data : List Byte}
      (hval : ∀ v, val = some v → v = s.tick ∨ v = s.count ∨ v ≤ 1) (hdata : data.length ≤ s.cfg.c) :
      Answers s i u (u.answerS ok val data)

/-- An operation that completes does one of the effects, then answers once on its port. -/
theorem exec_answers {i : Instr} {s t : State} (h : exec i s = .next t) :
    ∃ u, Effect s i u ∧ Answers s i u t := by
  cases i with
  | tick => rw [exec_tick_eq] at h; subst h; exact ⟨_, .tick, .onA rfl _⟩
  | rxb b =>
    rw [exec_rxb_eq] at h
    rcases h with ⟨ho, rfl⟩ | ⟨ho, rfl⟩ | ⟨ho, ht, rfl⟩ | ⟨ho, rfl⟩ | ⟨ho, rfl⟩
    · exact ⟨_, .rewind (.inl ho), .onA rfl _⟩
    · exact ⟨_, .idle ho, .onA rfl _⟩
    · exact ⟨_, .line ho ht, .onA rfl _⟩
    · exact ⟨_, .rewind (.inr ho), .onA rfl _⟩
    · exact ⟨_, .store ho, .onA rfl _⟩
  | push len =>
    rw [exec_push_eq] at h
    rcases h with ⟨hf, rfl⟩ | ⟨hn, hl, ht, rfl⟩
    · exact ⟨_, .idle hf, .onA rfl _⟩
    · exact ⟨_, .push hn hl ht, .onA rfl _⟩
  | pop len =>
    rw [exec_pop_eq] at h
    rcases h with ⟨hf, rfl⟩ | ⟨hn, hl, hh, rfl⟩
    · exact ⟨_, .idle hf, .onS rfl _ nofun (Nat.zero_le _)⟩
    · exact ⟨_, .pop hn hl hh, .onS rfl _ nofun (by simpa using hl)⟩
  | count =>
    rw [exec_count_eq] at h; subst h
    exact ⟨_, .idle trivial, .onS rfl _ (by rintro _ ⟨⟩; exact .inr (.inl rfl)) (Nat.zero_le _)⟩
  | full =>
    rw [exec_full_eq] at h; subst h
    exact ⟨_, .idle trivial, .onS rfl _ (by rintro _ ⟨⟩; exact .inr (.inr (bitVal_le_one _))) (Nat.zero_le _)⟩
  | empty =>
    rw [exec_empty_eq] at h; subst h
    exact ⟨_, .idle trivial, .onS rfl _ (by rintro _ ⟨⟩; exact .inr (.inr (bitVal_le_one _))) (Nat.zero_le _)⟩
  | rstall => rw [exec_rstall_eq] at h; subst h; exact ⟨_, .rstall, .onS rfl _ nofun (Nat.zero_le _)⟩
  | rstitem k =>
    rw [exec_rstitem_eq] at h
    rcases h with ⟨hk, rfl⟩ | ⟨hk, rfl⟩
    · exact ⟨_, .idle hk, .onS rfl _ nofun (Nat.zero_le _)⟩
    · exact ⟨_, .rstitem hk, .onS rfl _ nofun (Nat.zero_le _)⟩
  | rdtick =>
    rw [exec_rdtick_eq] at h; subst h
    exact ⟨_, .idle trivial, .onS rfl _ (by rintro _ ⟨⟩; exact .inl rfl) (Nat.zero_le _)⟩

/-- No effect reaches the requests to come, the lanes, the parameters or the answers given (R35). -/
theorem effect_frame {i : Instr} {s u : State} (e : Effect s i u) :
    u.inputs = s.inputs ∧ u.aWdata = s.aWdata ∧ u.cfg = s.cfg ∧ u.aOut = s.aOut ∧ u.sOut = s.sOut ∧
      u.draws = s.draws := by
  cases e <;> exact ⟨rfl, rfl, rfl, rfl, rfl, rfl⟩

/-- The effect of an A-port operation leaves `head` (R24, R67). -/
theorem effect_head_of_portA {i : Instr} {s u : State} (e : Effect s i u) (hp : i.port = .A) : u.head = s.head := by
  cases e with
  | pop | rstall => cases hp
  | _ => rfl

/-- The effect of an S-port operation leaves the tick and the framer, and `tail` but for `RSTALL` (R67). -/
theorem effect_frame_of_portS {i : Instr} {s u : State} (e : Effect s i u) (hp : i.port = .S) :
    u.tick = s.tick ∧ u.fbuf = s.fbuf ∧ u.cursor = s.cursor ∧ (i ≠ .rstall → u.tail = s.tail) := by
  cases e with
  | tick | rewind | store | line | push => cases hp
  | rstall => exact ⟨rfl, rfl, rfl, fun h => absurd rfl h⟩
  | _ => exact ⟨rfl, rfl, rfl, fun _ => rfl⟩

/-- Settles O52: the frame of the effect, and the one answer after it. -/
theorem whatEachPortLeavesAlone : Obligations.WhatEachPortLeavesAlone := by
  intro i s t h
  obtain ⟨u, e, ha⟩ := exec_answers h
  obtain ⟨hin, hw, hcfg, haOut, hsOut, hdraws⟩ := effect_frame e
  cases ha with
  | onA hp ok =>
    have hhead := effect_head_of_portA e hp
    exact ⟨hin, hw, hcfg, fun _ => ⟨hhead, hsOut, hdraws, ok, congrArg (ok :: ·) haOut⟩,
      fun hp' => by cases hp.symm.trans hp'⟩
  | onS hp ok =>
    obtain ⟨htick, hfbuf, hcursor, htail⟩ := effect_frame_of_portS e hp
    exact ⟨hin, hw, hcfg, fun hp' => (by cases hp.symm.trans hp'),
      fun _ => ⟨htick, hfbuf, hcursor, haOut, htail, _, by rw [State.answerS_sOut, hsOut]⟩⟩

theorem exec_inputs {i : Instr} {s t : State} (h : exec i s = .next t) : t.inputs = s.inputs := by
  obtain ⟨hin, -⟩ := whatEachPortLeavesAlone i s t h
  exact hin

/-- An A-port operation gives no S-port answer (R67). -/
theorem exec_sOut_of_portA {i : Instr} {s t : State} (h : exec i s = .next t) (hp : i.port = .A) :
    t.sOut = s.sOut := by
  obtain ⟨-, -, -, hA, -⟩ := whatEachPortLeavesAlone i s t h
  obtain ⟨-, hsOut, -⟩ := hA hp
  exact hsOut

/-! ### The framer -/

/-- Settles O48: the effects of `RXB` alone move the framer; each leaves the cursor, advances it below `C` with the
byte there stored, or returns it to 0. -/
theorem framerStateIsRxbAlone : Obligations.FramerStateIsRxbAlone := by
  intro i s t h
  obtain ⟨u, e, ⟨-, -, -, -, -, hfbuf, hcursor⟩, -⟩ := exec_effect h
  rw [hfbuf, hcursor, exec_cfg h]
  cases e with
  | rewind | line =>
    exact ⟨fun hb => absurd rfl (hb _), .inr (.inr rfl), fun _ => Nat.zero_le _, fun a ha => absurd rfl ha⟩
  | store ho =>
    obtain ⟨hc, -⟩ := rxOutcome_eq.mp ho
    exact ⟨fun hb => absurd rfl (hb _), .inr (.inl rfl), fun _ => hc,
      fun a ha => ⟨not_not.mp fun hne => ha (read_storeByte_other s _ hne), hc⟩⟩
  | _ => exact ⟨fun _ => ⟨rfl, rfl⟩, .inl rfl, id, fun a ha => absurd rfl ha⟩

/-! ### Space Q -/

/-- Under the invariant a byte other than `SENT` is an existing byte of a slot (R50). -/
theorem slot_addr_of_read_ne_sent {s : State} (hs : s.Inv) {a : Nat} (h : Memory.read s.slot a ≠ Config.sent) :
    a / 4096 < s.cfg.n ∧ a % 4096 < s.cfg.c := by
  obtain ⟨-, -, -, -, -, -, -, -, -, hq, -⟩ := hs
  by_contra hout
  exact h (Memory.read_of_unlisted fun c hc ha => hout (ha ▸ hq c hc))

/-- Settles O49: one of the two bytes that differ is not `SENT`, so the byte exists (`slot_addr_of_read_ne_sent`); who
writes it is `exec_slotByte_writer`. -/
theorem slotWriters : Obligations.SlotWriters := by
  intro i s t a hs h hne
  obtain ⟨hj, hk⟩ : a / 4096 < s.cfg.n ∧ a % 4096 < s.cfg.c := by
    by_cases hsent : Memory.read s.slot a = Config.sent
    · exact exec_cfg h ▸ slot_addr_of_read_ne_sent (exec_keeps_inv hs h) (hsent ▸ hne)
    · exact slot_addr_of_read_ne_sent hs hsent
  have haddr : a = slotAddr (a / 4096) (a % 4096) := (Nat.div_add_mod a 4096).symm
  have hwriter := exec_slotByte_writer (j := a / 4096) hs.capacity_le hk h (by
    rw [State.slotByte, State.slotByte, ← haddr]; exact hne)
  refine ⟨_, _, hj, hk, haddr, hwriter.imp_right (Or.imp_right ?_)⟩
  rintro ⟨htail, ⟨len, hi, -⟩ | ⟨hi, -⟩⟩
  · exact ⟨htail, .inl ⟨len, hi⟩⟩
  · exact ⟨htail, .inr hi⟩

end Sys2Proof.Machine
end

section
/-! A step (spec/20_memory.md): the next request, decoded on its port and performed; what every step keeps. -/

namespace Sys2Proof.Machine

/-! ### One step -/

/-- Settles O7: the three forms of the next request. -/
theorem stepRunsDecodedRequest : Obligations.StepRunsDecodedRequest :=
  ⟨fun _ _ _ _ hin hd => step_of_nextRequest (nextRequest_sync hin) hd,
    fun _ _ _ _ hin hd => step_of_nextRequest (nextRequest_async_last hin) hd,
    fun _ _ _ _ _ _ hin hd => step_of_nextRequest (nextRequest_async_more hin) hd⟩

theorem step_of_nothing {s : State} (h : s.nextRequest = none) : step s = .next s := by
  simp [step, h]

/-- Settles O8: there is no next request. -/
theorem stepWithNothingPresented : Obligations.StepWithNothingPresented :=
  fun _ hin => step_of_nothing (nextRequest_nothing hin)

/-- A step is refused an illegal word, under its port and reason (R87). -/
theorem step_of_illegal {s t : State} {p : Port} {w : Word} {e : Illegal}
    (h : s.nextRequest = some (p, w, t)) (hd : decode p w = .error e) : step s = .refused (.illegalWord p e) := by
  simp [step, h, hd, refuseWord]

/-- Settles O9: the port of the next request names the refusal, whether or not its event has more. -/
theorem stepRefusesIllegalWord : Obligations.StepRefusesIllegalWord := by
  refine ⟨fun s w rest e hin hd => step_of_illegal (nextRequest_sync hin) hd, fun s r more rest e hin hd => ?_⟩
  cases more with
  | nil => exact step_of_illegal (nextRequest_async_last hin) hd
  | cons r' more => exact step_of_illegal (nextRequest_async_more hin) hd

/-- What a step does: nothing where nothing is presented, else the operation its word decodes to (R61, R88). -/
theorem step_eq_next {s t : State} :
    step s = .next t ↔ (s.nextRequest = none ∧ t = s) ∨
      ∃ p w u i, s.nextRequest = some (p, w, u) ∧ decode p w = .ok i ∧ exec i u = .next t := by
  cases h : s.nextRequest with
  | none => simp [step_of_nothing h, eq_comm]
  | some r =>
    obtain ⟨p, w, u⟩ := r
    cases hd : decode p w with
    | ok i => simp [step_of_nextRequest h hd, hd]
    | error e => simp [step_of_illegal h hd, hd]

/-- Taking a request changes no element of the block and no parameter (R35). -/
theorem sameBlock_of_nextRequest {s u : State} {p : Port} {w : Word} (h : s.nextRequest = some (p, w, u)) :
    s.SameBlock u ∧ u.cfg = s.cfg := by
  unfold State.nextRequest at h
  split at h
  · cases h
  all_goals
    obtain ⟨-, -, rfl⟩ := h
    exact ⟨⟨rfl, rfl, rfl, rfl, rfl, rfl, rfl⟩, rfl⟩

theorem inv_of_nextRequest {s u : State} {p : Port} {w : Word} (hs : s.Inv) (h : s.nextRequest = some (p, w, u)) :
    u.Inv := by
  obtain ⟨hb, hcfg⟩ := sameBlock_of_nextRequest h
  exact inv_congr hb hcfg hs

/-! ### What every step keeps -/

/-- Settles O42: taking the request leaves the block, and its operation keeps the invariant. -/
theorem stepKeepsInvariant : Obligations.StepKeepsInvariant := by
  intro s t hs h
  rcases step_eq_next.mp h with ⟨-, rfl⟩ | ⟨p, w, u, i, hreq, -, hexec⟩
  · exact hs
  · exact exec_keeps_inv (inv_of_nextRequest hs hreq) hexec

/-- No step changes the parameters (R6). -/
theorem step_cfg {s t : State} (h : step s = .next t) : t.cfg = s.cfg := by
  rcases step_eq_next.mp h with ⟨-, rfl⟩ | ⟨p, w, u, i, hreq, -, hexec⟩
  · rfl
  · obtain ⟨-, hcfg⟩ := sameBlock_of_nextRequest hreq
    exact (exec_cfg hexec).trans hcfg

/-- Settles O51: by induction on the number of steps. -/
theorem parametersNeverChange : Obligations.ParametersNeverChange := by
  intro n s t h
  induction n generalizing s with
  | zero => cases h; rfl
  | succ n ih =>
    obtain ⟨u, hu, h⟩ := runSteps_succ_eq_next.mp h
    exact (ih u h).trans (step_cfg hu)

/-- Settles O44: the operation of a legal word completes from the invariant, so only an illegal word stops a step. -/
theorem stepStopsOnlyOnIllegalWords : Obligations.StepStopsOnlyOnIllegalWords := by
  intro s hs
  cases hreq : s.nextRequest with
  | none => simp [step_of_nothing hreq]
  | some r =>
    obtain ⟨p, w, u⟩ := r
    cases hd : decode p w with
    | ok i =>
      obtain ⟨t, hexec, -⟩ := everyOperationCompletes i u (inv_of_nextRequest hs hreq)
      simp [step_of_nextRequest hreq hd, hexec]
    | error e =>
      rw [step_of_illegal hreq hd]
      exact ⟨nofun, fun r hr => ⟨p, w, u, e, rfl, hd, (Host.Outcome.refused.inj hr).symm⟩⟩

/-- Settles O41: after reset every element is 0 and both byte spaces list no byte. -/
theorem resetMeetsInvariant : Obligations.ResetMeetsInvariant := by
  have hreset : ∀ p : Params, p.Valid → (State.resetWith p).Inv := by
    intro p hp
    obtain ⟨hpos, -⟩ := id hp
    exact ⟨hp, Nat.two_pow_pos _, hpos, hpos, Nat.zero_le _, (Nat.zero_mod _).symm, Nat.zero_le _, Memory.wf_nil,
      Memory.wf_nil, nofun, nofun⟩
  exact ⟨hreset, hreset _ (by decide)⟩

/-! ### Events -/

/-- Settles O10: the request taken leaves the event's rest in front, and an A-port operation answers on its own port. -/
theorem eventRunsToCompletion : Obligations.EventRunsToCompletion := by
  intro s t r r' more rest hin h
  obtain ⟨u, hu⟩ : ∃ u, t.inputs = .async r' more :: rest → t.nextRequest = some (.A, r'.cmd, u) := by
    cases more with
    | nil => exact ⟨_, nextRequest_async_last⟩
    | cons => exact ⟨_, nextRequest_async_more⟩
  rcases step_eq_next.mp h with ⟨hno, -⟩ | ⟨p, w, v, i, hreq, hd, hexec⟩
  · rw [nextRequest_async_more hin] at hno; cases hno
  · rw [nextRequest_async_more hin] at hreq
    obtain ⟨rfl, rfl, rfl⟩ := hreq
    obtain ⟨-, hp, -⟩ := encodeOfDecode _ _ _ hd
    have hout := exec_sOut_of_portA hexec hp
    exact ⟨exec_inputs hexec, hout, u, hu (exec_inputs hexec)⟩

/-- `s` with the requests `l` to come. -/
def State.withInputs (s : State) (l : List Input) : State := { s with inputs := l }

/-- A change `f` of the state that the tests of `RXB` do not see, and that can be made before or after its updates, can
be made before or after the `RXB`. -/
theorem exec_rxb_commutes {f : State → State} {b : Byte} {s : State} (ho : (f s).rxOutcome b = s.rxOutcome b)
    (ht : (f s).tail < (f s).cfg.n ↔ s.tail < s.cfg.n)
    (hanswer : (f s).answerA true = f (s.answerA true))
    (hrewind : (f s).rewind.answerA true = f (s.rewind.answerA true))
    (hline : ((f s).append ((f s).memReadF (f s).cursor) (f s).cursor).rewind.answerA true =
      f ((s.append (s.memReadF s.cursor) s.cursor).rewind.answerA true))
    (hstore : ((f s).storeByte b).answerA true = f ((s.storeByte b).answerA true)) :
    exec (.rxb b) (f s) = onNext f (exec (.rxb b) s) := by
  show execRxb b (f s) = onNext f (execRxb b s)
  unfold execRxb
  rw [ho]
  cases s.rxOutcome b with
  | overflow | dropped => exact congrArg _ hrewind
  | ignore => exact congrArg _ hanswer
  | store => exact congrArg _ hstore
  | pushed =>
    show onNext _ (queueAppend _ _ (f s)) = onNext f (onNext _ (queueAppend _ _ s))
    unfold queueAppend
    rw [if_congr ht rfl rfl]
    by_cases h : s.tail < s.cfg.n
    · rw [if_pos h, if_pos h]; exact congrArg _ hline
    · rw [if_neg h, if_neg h]; rfl

/-- `RXB` does not read the requests to come (R35). -/
theorem exec_rxb_withInputs (b : Byte) (s : State) (l : List Input) :
    exec (.rxb b) (s.withInputs l) = onNext (·.withInputs l) (exec (.rxb b) s) :=
  exec_rxb_commutes (f := (·.withInputs l)) rfl Iff.rfl rfl rfl rfl rfl

/-- The next request is one `RXB` of an event: the step performs it, with its payload on the lanes. -/
theorem step_rxb {s : State} {b : Byte} {w : Nat} {bs : List Byte} {rest : List Input}
    (hin : s.inputs = rxbuf w (b :: bs) ++ rest) :
    step s = exec (.rxb b) (State.withInputs { s with aWdata := w } (rxbuf w bs ++ rest)) := by
  cases bs with
  | nil => exact step_of_nextRequest (nextRequest_async_last hin) (decode_encode_rxb b)
  | cons c bs => exact step_of_nextRequest (nextRequest_async_more hin) (decode_encode_rxb b)

/-- Steps through the bytes of one event perform them in order. -/
theorem runSteps_rxbuf {b : Byte} {bs : List Byte} {s : State} {w : Nat} {rest : List Input}
    (hin : s.inputs = rxbuf w (b :: bs) ++ rest) :
    runSteps (bs.length + 1) s =
      execAll ((b :: bs).map Instr.rxb) (State.withInputs { s with aWdata := w } rest) := by
  induction bs generalizing b s with
  | nil => rw [List.length_nil, runSteps, step_rxb hin]; rfl
  | cons c bs ih =>
    rw [List.length_cons, runSteps, step_rxb hin, List.map_cons, execAll, exec_rxb_withInputs, exec_rxb_withInputs]
    cases hexec : exec (.rxb b) { s with aWdata := w } with
    | next t =>
      obtain ⟨-, rfl : t.aWdata = w, -⟩ := whatEachPortLeavesAlone _ _ _ hexec
      exact ih rfl
    | fault f => rfl
    | refused r => rfl

/-- Settles O11: the steps perform each byte of the one event (`runSteps_rxbuf`). -/
theorem rxbufEqualsItsBytes : Obligations.RxbufEqualsItsBytes :=
  fun _ _ _ _ _ hin => runSteps_rxbuf hin

/-! ### `TICKS` -/

/-- Settles O13: by induction on `n`; each step is one `TICK`. -/
theorem ticksAdvanceTheTick : Obligations.TicksAdvanceTheTick := by
  intro s w n rest hs hin
  induction n generalizing s with
  | zero => exact ⟨s, rfl, hin, (Nat.mod_eq_of_lt hs), rfl, rfl, rfl, rfl, rfl, rfl⟩
  | succ n ih =>
    let u : State := { s with inputs := ticks w n ++ rest, aWdata := w }
    have hstep : step s = .next (u.tickUp.answerA true) :=
      (step_of_nextRequest (nextRequest_async_last hin) (decode_encode_of_port rfl rfl)).trans (exec_tick_eq.mpr rfl)
    obtain ⟨t, ht, htin, htick, hrest⟩ := ih (u.tickUp.answerA true) (Nat.mod_lt _ (Nat.two_pow_pos _)) rfl
    refine ⟨t, (runSteps_of_step n hstep).trans ht, htin, Eq.trans ?_ htick, hrest⟩
    show (s.tick + (n + 1)) % 2 ^ s.cfg.tw = ((s.tick + 1) % 2 ^ s.cfg.tw + n) % 2 ^ s.cfg.tw
    rw [Nat.mod_add_mod, Nat.add_right_comm, Nat.add_assoc]

end Sys2Proof.Machine
end

section
/-! `RXS` (R90): the framer's state and its answers depend on the bytes delivered alone, whatever the consumer does
between. -/

namespace Sys2Proof.Machine

/-- The framer and the A-port's answers are the same in both states. -/
def State.SameFramer (s u : State) : Prop :=
  u.cfg = s.cfg ∧ u.fbuf = s.fbuf ∧ u.cursor = s.cursor ∧ u.aOut = s.aOut

theorem State.SameFramer.refl (s : State) : s.SameFramer s := ⟨rfl, rfl, rfl, rfl⟩

/-- What `RXB` does to the framer, whatever the queue holds: a line that ends is pushed or dropped, and either way the
cursor returns to 0 (R140). -/
theorem exec_rxb_framer {b : Byte} {s t : State} (h : exec (.rxb b) s = .next t) :
    t.fbuf = (if s.cursor < s.cfg.c ∧ b ≠ Config.cr ∧ b ≠ Config.lf then Memory.write s.fbuf s.cursor b else s.fbuf) ∧
    t.cursor = (if s.cfg.c ≤ s.cursor ∨ b = Config.lf then 0 else if b = Config.cr then s.cursor else s.cursor + 1) ∧
    t.aOut = true :: s.aOut := by
  have hne : Config.cr ≠ Config.lf := by decide
  rcases exec_rxb_eq.mp h with ⟨ho, rfl⟩ | ⟨ho, rfl⟩ | ⟨ho, -, rfl⟩ | ⟨ho, rfl⟩ | ⟨ho, rfl⟩
  · have hc : s.cfg.c ≤ s.cursor := rxOutcome_eq.mp ho
    exact ⟨(if_neg fun h => hc.not_gt h.1).symm, (if_pos (.inl hc)).symm, rfl⟩
  · obtain ⟨hc, rfl⟩ := rxOutcome_eq.mp ho
    simp [hc.not_ge, hne]
  · obtain ⟨hc, rfl, -⟩ := rxOutcome_eq.mp ho
    simp
  · obtain ⟨hc, rfl, -⟩ := rxOutcome_eq.mp ho
    simp
  · obtain ⟨hc, hcr, hlf⟩ := rxOutcome_eq.mp ho
    simp [hc, hc.not_ge, hcr, hlf]

/-- One byte leaves two states of one framer with one framer. -/
theorem sameFramer_of_exec_rxb {b : Byte} {s t u v : State} (hf : s.SameFramer u) (hs : exec (.rxb b) s = .next t)
    (hu : exec (.rxb b) u = .next v) : t.SameFramer v := by
  obtain ⟨hcfg, hfbuf, hcursor, hout⟩ := hf
  obtain ⟨htf, htc, hto⟩ := exec_rxb_framer hs
  obtain ⟨hvf, hvc, hvo⟩ := exec_rxb_framer hu
  exact ⟨by rw [exec_cfg hu, exec_cfg hs, hcfg], by rw [hvf, htf, hcfg, hfbuf, hcursor],
    by rw [hvc, htc, hcfg, hcursor], by rw [hvo, hto, hout]⟩

/-- Bytes delivered to two states of one framer are all taken and leave one framer; they leave the tick and the requests
to come. -/
theorem execAll_rxb_sameFramer (bs : List Byte) {s u : State} (hs : s.Inv) (hu : u.Inv) (hf : s.SameFramer u) :
    ∃ t v, execAll (bs.map Instr.rxb) s = .next t ∧ execAll (bs.map Instr.rxb) u = .next v ∧ t.Inv ∧ v.Inv ∧
      t.SameFramer v ∧ t.tick = s.tick ∧ t.inputs = s.inputs := by
  induction bs generalizing s u with
  | nil => exact ⟨s, u, rfl, rfl, hs, hu, hf, rfl, rfl⟩
  | cons b bs ih =>
    obtain ⟨s', hs', hsinv⟩ := everyOperationCompletes (.rxb b) s hs
    obtain ⟨u', hu', huinv⟩ := everyOperationCompletes (.rxb b) u hu
    obtain ⟨t, v, ht, hv, htinv, hvinv, htv, htick, hin⟩ := ih hsinv huinv (sameFramer_of_exec_rxb hf hs' hu')
    exact ⟨t, v, (execAll_cons hs').trans ht, (execAll_cons hu').trans hv, htinv, hvinv, htv,
      htick.trans (exec_tick hs'), hin.trans (exec_inputs hs')⟩

/-- Steps through the bytes of one event leave the framer as the bytes alone do. -/
theorem runSteps_rxbuf_sameFramer {bs : List Byte} {s u : State} {w : Nat} {rest : List Input} (hs : s.Inv) (hu : u.Inv)
    (hf : s.SameFramer u) (hin : s.inputs = rxbuf w bs ++ rest) :
    ∃ t v, runSteps bs.length s = .next t ∧ execAll (bs.map Instr.rxb) u = .next v ∧ t.Inv ∧ v.Inv ∧
      t.SameFramer v ∧ t.tick = s.tick ∧ t.inputs = rest := by
  cases bs with
  | nil => exact ⟨s, u, rfl, rfl, hs, hu, hf, rfl, hin⟩
  | cons b bs =>
    rw [List.length_cons, runSteps_rxbuf hin]
    exact execAll_rxb_sameFramer (b :: bs) (s := State.withInputs { s with aWdata := w } rest) hs hu hf

/-- A step that takes a well-formed S-port operation leaves the framer, the A-port's answers and the tick (R67). -/
theorem step_portS_sameFramer {i : Instr} {s : State} {rest : List Input} (hs : s.Inv) (hp : i.port = .S)
    (hi : i.wellFormed = true) (hin : s.inputs = requestS i :: rest) :
    ∃ t, step s = .next t ∧ t.Inv ∧ t.SameFramer s ∧ t.tick = s.tick ∧ t.inputs = rest := by
  obtain ⟨t, hexec, htinv⟩ := everyOperationCompletes i { s with inputs := rest } hs
  obtain ⟨hrest, -, hcfg, -, hS⟩ := whatEachPortLeavesAlone _ _ _ hexec
  obtain ⟨htick, hfbuf, hcursor, hout, -⟩ := hS hp
  exact ⟨t, (step_of_nextRequest (nextRequest_sync hin) (decode_encode_of_port hi hp)).trans hexec, htinv,
    ⟨hcfg.symm, hfbuf.symm, hcursor.symm, hout.symm⟩, htick, hrest⟩

theorem State.SameFramer.trans {s t u : State} (hst : s.SameFramer t) (htu : t.SameFramer u) : s.SameFramer u := by
  obtain ⟨hcfg, hfbuf, hcursor, hout⟩ := hst
  obtain ⟨hcfg', hfbuf', hcursor', hout'⟩ := htu
  exact ⟨hcfg'.trans hcfg, hfbuf'.trans hfbuf, hcursor'.trans hcursor, hout'.trans hout⟩

theorem runSteps_portS_sameFramer {is : List Instr} {s : State} {rest : List Input} (hs : s.Inv)
    (his : ∀ i ∈ is, i.port = .S ∧ i.wellFormed = true) (hin : s.inputs = is.map requestS ++ rest) :
    ∃ t, runSteps is.length s = .next t ∧ t.Inv ∧ t.SameFramer s ∧ t.tick = s.tick ∧ t.inputs = rest := by
  induction is generalizing s with
  | nil => exact ⟨s, rfl, hs, .refl s, rfl, hin⟩
  | cons i is ih =>
    obtain ⟨⟨hp, hi⟩, his⟩ := List.forall_mem_cons.mp his
    obtain ⟨u, hu, huinv, huf, hutick, huin⟩ := step_portS_sameFramer hs hp hi hin
    obtain ⟨t, ht, htinv, htf, httick, htin⟩ := ih huinv his huin
    exact ⟨t, (runSteps_of_step _ hu).trans ht, htinv, htf.trans huf, httick.trans hutick, htin⟩

/-- Steps through an `RXS`, from a state of the same framer as `u`, leave the framer as the bytes alone leave that of
`u`. -/
theorem runSteps_rxs_sameFramer {events : List (List Byte × List Instr)} {s u : State} {w : Nat} {rest : List Input}
    (hs : s.Inv) (hu : u.Inv) (hf : s.SameFramer u)
    (hevents : ∀ e ∈ events, ∀ i ∈ e.2, i.port = .S ∧ i.wellFormed = true) (hin : s.inputs = rxs w events ++ rest) :
    ∃ t v, runSteps (events.map fun e => e.1.length + e.2.length).sum s = .next t ∧ t.inputs = rest ∧
      execAll ((events.flatMap Prod.fst).map Instr.rxb) u = .next v ∧ t.SameFramer v ∧ t.tick = s.tick := by
  induction events generalizing s u with
  | nil => exact ⟨s, u, rfl, hin, rfl, hf, rfl⟩
  | cons e events ih =>
    obtain ⟨he, hevents⟩ := List.forall_mem_cons.mp hevents
    have hsplit : s.inputs = rxbuf w e.1 ++ (e.2.map requestS ++ (rxs w events ++ rest)) := by
      rw [hin, rxs, List.flatMap_cons, ← rxs]
      simp only [List.append_assoc]
    obtain ⟨s₁, v₁, hs₁, hv₁, hs₁inv, hv₁inv, hf₁, htick₁, hin₁⟩ := runSteps_rxbuf_sameFramer hs hu hf hsplit
    obtain ⟨s₂, hs₂, hs₂inv, hf₂, htick₂, hin₂⟩ := runSteps_portS_sameFramer hs₁inv he hin₁
    obtain ⟨t, v, ht, htin, hv, htf, htick⟩ := ih hs₂inv hv₁inv (hf₂.trans hf₁) hevents hin₂
    refine ⟨t, v, ?_, htin, ?_, htf, htick.trans (htick₂.trans htick₁)⟩
    · rw [List.map_cons, List.sum_cons, Nat.add_assoc, runSteps_add hs₁, runSteps_add hs₂, ht]
    · rw [List.flatMap_cons, List.map_append, execAll_append hv₁, hv]

/-- Settles O12: the state itself has one framer with itself (`runSteps_rxs_sameFramer`). -/
theorem rxsFeedsTheFramer : Obligations.RxsFeedsTheFramer := by
  intro s w events rest hs hevents hin
  obtain ⟨t, u, ht, htin, hu, ⟨-, hfbuf, hcursor, hout⟩, htick⟩ :=
    runSteps_rxs_sameFramer hs hs (.refl s) hevents hin
  exact ⟨t, u, ht, htin, hu, hfbuf.symm, hcursor.symm, hout.symm, htick⟩

end Sys2Proof.Machine
end

section
/-! The readers' arithmetic (spec/40_tick.md, R113, R13), and the operations of the two agents that commute
(spec/20_memory.md, R62, R67). -/

namespace Sys2Proof.Machine

/-! ### Deadlines -/

/-- Settles O20: below `2^TW` the difference is the number of `TICK`s (`tickValueLaw`); it is always below `2^TW`. -/
theorem deadlineTestIsExact : Obligations.DeadlineTestIsExact := by
  refine ⟨fun is s t limit hs h hk => ?_, fun p now start limit hlimit => ?_⟩
  · obtain ⟨-, -, hdiff⟩ := tickValueLaw
    rw [hdiff is s t hs h hk]
  · have hlt : elapsed p now start < 2 ^ p.tw := Nat.mod_lt _ (Nat.two_pow_pos _)
    omega

/-- Settles O21: `RDTICK` answers the tick at both ends and changes nothing, and the difference is the number of
`TICK`s (`tickValueLaw`). -/
theorem elapsedReadsAndSubtracts : Obligations.ElapsedReadsAndSubtracts := by
  intro is s t u hs ht hu hk
  obtain rfl := exec_rdtick_eq.mp ht
  obtain ⟨-, -, hdiff⟩ := tickValueLaw
  have hread : exec .rdtick u = .next (u.answerS true (some u.tick) []) := exec_rdtick_eq.mpr rfl
  refine ⟨_, s.tick, rfl, hread, ⟨rfl, rfl, rfl, rfl, rfl, rfl, rfl⟩, ?_⟩
  have hticks : elapsed s.cfg u.tick s.tick = tickCount is :=
    hdiff is (s.answerS true (some s.tick) []) u hs hu hk
  rw [readElapsed, hread, andThen_next, State.lastVal_answerS, State.answerS_cfg, execAll_cfg hu, ← hticks]
  rfl

/-! ### `TICK` and `RXB` -/

/-- `RXB` neither reads the tick nor the A-port's answers: it does the same after a `TICK` (R62). -/
theorem exec_rxb_tickUp (b : Byte) (s : State) :
    exec (.rxb b) (s.tickUp.answerA true) = onNext (fun t => t.tickUp.answerA true) (exec (.rxb b) s) :=
  exec_rxb_commutes (f := fun t => t.tickUp.answerA true) rfl Iff.rfl rfl rfl rfl rfl

/-- Settles O14: `exec_rxb_tickUp`, for each outcome of the `RXB`. -/
theorem tickAndRxbCommute : Obligations.TickAndRxbCommute := by
  intro s b
  have htick : ∀ t : State, exec .tick t = .next (t.tickUp.answerA true) := fun t => exec_tick_eq.mpr rfl
  rw [execAll_cons (htick s), execAll, exec_rxb_tickUp, execAll]
  cases exec (.rxb b) s with
  | next t => exact (execAll_cons (htick t)).symm
  | fault f => rfl
  | refused r => rfl

/-! ### `PUSH` and `POP` -/

/-- While the queue is neither empty nor full the slot pushed into is not the slot popped from (R67). -/
theorem head_ne_tail {s : State} (hs : s.Inv) (h0 : 0 < s.count) (hn : s.count < s.cfg.n) : s.head ≠ s.tail := by
  obtain ⟨-, -, hhead, -, -, htail, -⟩ := hs
  rw [htail]
  simpa [Nat.mod_eq_of_lt hhead] using index_ne hhead h0 hn

/-- A push leaves what a `POP` of another slot reads (R67). -/
theorem memReadQ_append_other (s : State) {rec : List Byte} {len i k : Nat} (hc : s.cfg.c ≤ 4095)
    (hl : (rec.take len).length ≤ s.cfg.c) (hi : i ≠ s.tail) (hk : k ≤ s.cfg.c) :
    memReadQ (s.append rec len).slot i k = memReadQ s.slot i k :=
  Memory.readBytes_congr fun _ hj => slotByte_append_other s hc hl hi (hj.trans_le hk)

/-- A push moves `tail` and a pop moves `head`; the count comes out the same (R25, R26). -/
theorem dropOldest_append {s : State} (h0 : 0 < s.count) (rec : List Byte) (len : Nat) :
    s.dropOldest.append rec len = (s.append rec len).dropOldest := by
  have hcount : s.count - 1 + 1 = s.count + 1 - 1 := by omega
  simp only [State.append, State.dropOldest, hcount]

/-- Settles O15: head and tail are different slots, so the `POP` reads what it would have read, and the updates of head
and of tail do not meet. -/
theorem pushAndPopCommute : Obligations.PushAndPopCommute := by
  intro s len k hs h0 hn hl hk
  have hpush := exec_push_of_room hs hn hl
  have hpop := exec_pop_of_nonempty hs h0.ne' hk
  have hpop' := exec_pop_of_nonempty (exec_keeps_inv hs hpush) (Nat.succ_ne_zero _) hk
  have hpush' := exec_push_of_room (exec_keeps_inv hs hpop) ((Nat.sub_le ..).trans_lt hn) hl
  have hread := memReadQ_append_other s (rec := s.payload) (len := len) hs.capacity_le (by simp)
    (head_ne_tail hs h0 hn) hk
  refine ⟨_, (execAll_cons hpush).trans (execAll_cons hpop'), (execAll_cons hpop).trans ?_⟩
  rw [execAll_cons hpush']
  show Host.Outcome.next (((s.dropOldest.append s.payload len).answerA true).answerS true none
      (memReadQ s.slot s.head k)) =
    .next (((s.append s.payload len).dropOldest.answerA true).answerS true none
      (memReadQ (s.append s.payload len).slot s.head k))
  rw [dropOldest_append h0, hread]

end Sys2Proof.Machine
end

section
/-! The queue's content (spec/41_queue.md, R127, R128), and `DRAIN` on it (R90, R14). -/

namespace Sys2Proof.Machine

/-! ### `RSTITEM` -/

/-- The word of `RSTITEM` is its code with the index put in (R83, R84). -/
theorem decode_rstitem {i : Nat} (hi : i < 4096) :
    decode .S (0xD000#16 ||| BitVec.ofNat 16 i) = .ok (.rstitem i) := by
  rw [show 0xD000#16 = makeWord 0xD 0 from rfl, makeWord_or_ofNat _ hi]
  exact decode_encode_of_port (i := .rstitem i) (decide_eq_true hi) rfl

/-- Settles O28: the clear of slot `i` fills the range of the slot and nothing else. -/
theorem rstitemInRange : Obligations.RstitemInRange := by
  refine ⟨fun i => decode_rstitem, fun i s hi =>
    ⟨_, _, exec_rstitem_eq.mpr (.inr ⟨hi, rfl⟩), rfl, fun k hk => ?_, fun x hx => ?_, rfl⟩⟩
  · have hin : slotAddr i 0 ≤ slotAddr i k ∧ slotAddr i k < slotAddr i 0 + s.cfg.c := by unfold slotAddr; omega
    exact (read_memFillQ ..).trans (if_pos hin)
  · exact (read_memFillQ ..).trans (if_neg (not_mem_slot hx))

/-- Settles O29: the test of the index fails, and the block only answers. -/
theorem rstitemOutOfRangeFails : Obligations.RstitemOutOfRangeFails :=
  fun _ _ hi => ⟨_, exec_rstitem_eq.mpr (.inl ⟨hi, rfl⟩), rfl⟩

/-! ### The content -/

/-- Settles O30: with room the `PUSH` is an append, which adds the padded payload to the content. -/
theorem pushAppendsTheRecord : Obligations.PushAppendsTheRecord := by
  intro len s hs hn hl
  have hroom : s.count < s.cfg.n := hs.count_le.lt_of_ne hn
  exact ⟨_, exec_push_of_room hs hroom hl, live_append_payload hs hroom len⟩

/-- The first bytes of a longer read are the shorter read. -/
theorem take_memReadQ (m : Memory) (i : Nat) {k n : Nat} (h : k ≤ n) :
    (memReadQ m i n).take k = memReadQ m i k := by
  rw [memReadQ, memReadQ, Memory.readBytes, Memory.readBytes, ← List.map_take, List.take_range, Nat.min_eq_left h]

/-- Settles O31: the `POP` reads the slot at head, which holds the oldest record of the content. -/
theorem popRemovesTheOldestRecord : Obligations.PopRemovesTheOldestRecord := by
  intro len s hs hn hl
  refine ⟨_, _, _, exec_pop_of_nonempty hs hn hl, live_dropOldest hs hn, rfl, rfl, ?_⟩
  rw [List.take_append_of_le_length (by simp), State.record, take_memReadQ _ _ hl]
  exact List.take_of_length_le (by simp)

@[simp] theorem live_clearQueue (s : State) : s.clearQueue.live = [] := rfl

/-- Settles O32: no record is live at count 0, and a clear blanks the one record in its slot (`live_clearSlot`). -/
theorem resetsOnTheContent : Obligations.ResetsOnTheContent :=
  ⟨fun s => ⟨_, exec_rstall_eq.mpr rfl, live_clearQueue s⟩,
    fun i s hs hi => ⟨_, exec_rstitem_eq.mpr (.inr ⟨hi, rfl⟩), live_clearSlot s hs.capacity_le i⟩⟩

/-! ### `DRAIN` -/

/-- A `POP C` of a queue that holds a record answers the oldest record and leaves the rest of the content (R122,
R128). -/
theorem exec_pop_capacity {s : State} (hs : s.Inv) (hn : s.count ≠ 0) :
    ∃ t a, exec (.pop s.cfg.c) s = .next t ∧ t.Inv ∧ t.sOut = a :: s.sOut ∧ a.ok = true ∧ t.count + 1 = s.count ∧
      s.live = a.data :: t.live := by
  have hexec := exec_pop_of_nonempty hs hn le_rfl
  refine ⟨_, _, hexec, exec_keeps_inv hs hexec, rfl, rfl, Nat.sub_add_cancel (Nat.pos_of_ne_zero hn), ?_⟩
  show _ = (memReadQ s.slot s.head s.cfg.c ++ s.dropOldest.freeLanes _) :: _
  rw [append_freeLanes_of_full (s := s.dropOldest) (by simp)]
  exact live_dropOldest hs hn

/-- `DRAIN` with a silent producer: the answers it adds, newest first, are a `COUNT` of 0 and, below it, a `POP` and a
`COUNT` for each record, the oldest record's last. -/
theorem drain_silent {n : Nat} {s : State} (hs : s.Inv) (hn : s.count = n) :
    ∃ (t : State) (as : List SAnswer), drain (List.replicate n ([], [])) s = .next (t, true) ∧ t.count = 0 ∧
      t.sOut = as ++ s.sOut ∧ as.length = 2 * n + 1 ∧
      ∀ k, k < n → ∃ a : SAnswer, as[2 * (n - 1 - k) + 1]? = some a ∧ a.ok = true ∧ s.live[k]? = some a.data := by
  induction n generalizing s with
  | zero => exact ⟨_, [_], drain_of_empty hn _, hn, rfl, rfl, nofun⟩
  | succ n ih =>
    have hne : s.count ≠ 0 := by omega
    obtain ⟨v, a, hpop, hv, hvout, haok, hvcount, hlive⟩ :=
      exec_pop_capacity (s := s.answerS true (some s.count) []) (exec_keeps_inv hs (exec_count_eq.mpr rfl)) hne
    obtain ⟨t, as, ht, htcount, htout, hlen, hpops⟩ := ih hv (Nat.succ.inj (hvcount.trans hn))
    have hlive' : s.live = a.data :: v.live := hlive
    refine ⟨t, as ++ [a, ⟨true, s.count, s.freeLanes 0⟩], ?_, htcount, ?_, by simp [hlen]; omega, fun k hk => ?_⟩
    · rw [List.replicate_succ, drain_cons_of_nonempty hne, produce_nil, andThen_next, hpop, andThen_next,
        produce_nil, andThen_next, ht]
    · rw [htout, hvout]; simp
    · rw [hlive']
      cases k with
      | zero => exact ⟨a, by simp [hlen], haok, rfl⟩
      | succ k =>
        obtain ⟨a', ha', hok', hdata'⟩ := hpops k (Nat.lt_of_succ_lt_succ hk)
        refine ⟨a', ?_, hok', hdata'⟩
        rw [show n + 1 - 1 - (k + 1) = n - 1 - k by omega, List.getElem?_append_left (by omega), ha']

/-- Settles O34: `drain_silent`; the answers given before stand below those added. -/
theorem drainReturnsEveryRecordInOrder : Obligations.DrainReturnsEveryRecordInOrder := by
  intro s hs
  obtain ⟨t, as, ht, hcount, hout, hlen, hpops⟩ := drain_silent hs rfl
  refine ⟨t, ht, hcount, by rw [hout, List.length_append, hlen]; omega, fun k hk => ?_⟩
  obtain ⟨a, ha, hok, hdata⟩ := hpops k hk
  exact ⟨a, by rw [hout, List.getElem?_append_left (by omega), ha], hok, hdata⟩

/-! ### `DRAIN` amid the producer -/

/-- A push that succeeds is of an operation that may push (R25). -/
theorem mayPush_of_pushes {i : Instr} {s : State} (h : s.Pushes i) : i.mayPush = true := by
  obtain ⟨len, rfl, -⟩ | ⟨rfl, -⟩ := h <;> rfl

/-- An A-port operation never takes from the occupancy, and adds at most one where it may push (R26, R67). -/
theorem exec_count_of_portA {i : Instr} {s t : State} (h : exec i s = .next t) (hp : i.port = .A) :
    s.count ≤ t.count ∧ t.count ≤ s.count + if i.mayPush then 1 else 0 := by
  refine ⟨count_ge_of_not_removes (by rintro rfl; cases hp) (by rintro ⟨len, rfl, -⟩; cases hp) h, ?_⟩
  by_cases hpush : s.Pushes i
  · rw [exec_count_of_pushes h hpush, mayPush_of_pushes hpush]; exact le_rfl
  · exact (count_le_of_not_pushes hpush h).trans (Nat.le_add_right ..)

/-- The producer's operations complete, answer nothing on the S-port and take nothing from the queue; they add at most
one record for each that may push. -/
theorem produce_completes {ops : List (Instr × Nat)} {s : State} (hs : s.Inv) (hp : ∀ x ∈ ops, x.1.port = .A) :
    ∃ t, produce ops s = .next t ∧ t.Inv ∧ t.sOut = s.sOut ∧ s.count ≤ t.count ∧
      t.count ≤ s.count + ops.countP (fun x => x.1.mayPush) := by
  induction ops generalizing s with
  | nil => exact ⟨s, rfl, hs, rfl, le_rfl, le_rfl⟩
  | cons x ops ih =>
    obtain ⟨hx, hp⟩ := List.forall_mem_cons.mp hp
    obtain ⟨u, hu, huinv⟩ := everyOperationCompletes x.1 { s with aWdata := x.2 } hs
    have huout : u.sOut = s.sOut := exec_sOut_of_portA (s := { s with aWdata := x.2 }) hu hx
    obtain ⟨huge, hule⟩ : s.count ≤ u.count ∧ u.count ≤ s.count + if x.1.mayPush then 1 else 0 :=
      exec_count_of_portA (s := { s with aWdata := x.2 }) hu hx
    obtain ⟨t, ht, htinv, htout, hle, hge⟩ := ih huinv hp
    refine ⟨t, produce_cons_eq_next.mpr ⟨u, hu, ht⟩, htinv, htout.trans huout, huge.trans hle, ?_⟩
    rw [List.countP_cons]
    omega

/-- Settles O35: by induction on the rounds; what the producer does before a `POP C` takes nothing, so it finds a
record, and each round takes one record beside those the producer adds. -/
theorem drainAmidTheProducer : Obligations.DrainAmidTheProducer := by
  intro rounds
  induction rounds with
  | nil =>
    intro s hs _
    refine ⟨_, _, [_], drain_nil s, exec_keeps_inv hs (exec_count_eq.mpr rfl), rfl, by simp, by simp, ?_⟩
    simp
  | cons r rounds ih =>
    intro s hs hp
    obtain ⟨hr, hrounds⟩ := List.forall_mem_cons.mp hp
    obtain ⟨hr₁, hr₂⟩ := List.forall_mem_append.mp hr
    by_cases hn : s.count = 0
    · exact ⟨_, _, [_], drain_of_empty hn _, exec_keeps_inv hs (exec_count_eq.mpr rfl), rfl, by simp, by simp [hn],
        fun _ => rfl⟩
    · obtain ⟨u, hu, huinv, huout, huge, hule⟩ :=
        produce_completes (s := s.answerS true (some s.count) []) (exec_keeps_inv hs (exec_count_eq.mpr rfl)) hr₁
      rw [State.answerS_count] at huge hule
      obtain ⟨v, a, hv, hvinv, hvout, haok, hvcount, -⟩ := exec_pop_capacity huinv (by omega)
      obtain ⟨x, hx, hxinv, hxout, -, hxle⟩ := produce_completes hvinv hr₂
      obtain ⟨t, stopped, as, ht, htinv, htout, hoks, hiff, hbound⟩ := ih x hxinv hrounds
      refine ⟨t, stopped, as ++ [a, ⟨true, s.count, s.freeLanes 0⟩], ?_, htinv, ?_, ?_, hiff, fun hle => hbound ?_⟩
      · rw [drain_cons_of_nonempty hn, hu, andThen_next, hv, andThen_next, hx, andThen_next, ht]
      · rw [htout, hxout, hvout, huout]; simp
      · simpa [or_imp, forall_and, haok] using hoks
      · rw [List.flatMap_cons, List.countP_append, List.countP_append, List.length_cons] at hle
        omega

end Sys2Proof.Machine
end

section
/-! Lines (spec/42_framer.md): what the framer accumulates of a line, and what becomes of the line at its end (R143 to
R147). -/

namespace Sys2Proof.Machine

/-! ### The record of a line -/

/-- Settles O37: an `RXB` that changes the count pushes a line below capacity, and the slot keeps `SENT` from the cursor
on. -/
theorem framedRecordKeepsASentinel : Obligations.FramedRecordKeepsASentinel := by
  intro b s t hs h hne
  rcases exec_rxb_eq.mp h with ⟨-, rfl⟩ | ⟨-, rfl⟩ | ⟨ho, -, rfl⟩ | ⟨-, rfl⟩ | ⟨-, rfl⟩
  case inr.inr.inl =>
    obtain ⟨hc, -⟩ := rxOutcome_eq.mp ho
    exact ⟨by omega, (slotByte_append_line s (by omega)).trans (if_neg (by omega))⟩
  all_goals exact absurd rfl hne

/-! ### The bytes of a line -/

/-- A `CR` below capacity is only answered (R140 step 2). -/
theorem exec_cr {s : State} (hc : s.cursor < s.cfg.c) : exec (.rxb 0x0D) s = .next (s.answerA true) :=
  exec_rxb_eq.mpr (.inr (.inl ⟨rxOutcome_eq.mpr ⟨hc, rfl⟩, rfl⟩))

/-- A content byte below capacity is stored (R140 step 4). -/
theorem exec_content {s : State} {b : Byte} (hc : s.cursor < s.cfg.c) (hcr : b ≠ 0x0D) (hlf : b ≠ 0x0A) :
    exec (.rxb b) s = .next ((s.storeByte b).answerA true) :=
  exec_rxb_eq.mpr (.inr (.inr (.inr (.inr ⟨rxOutcome_eq.mpr ⟨hc, hcr, hlf⟩, rfl⟩))))

/-- At capacity any byte loses the line (R140 step 1, R142). -/
theorem exec_rxb_at_capacity {s : State} (b : Byte) (hc : s.cfg.c ≤ s.cursor) :
    exec (.rxb b) s = .next (s.rewind.answerA true) :=
  exec_rxb_eq.mpr (.inl ⟨rxOutcome_eq.mpr hc, rfl⟩)

/-- An `LF` below capacity, with the queue full, drops the line (R146). -/
theorem exec_lf_of_full {s : State} (hc : s.cursor < s.cfg.c) (hn : s.cfg.n ≤ s.count) :
    exec (.rxb 0x0A) s = .next (s.rewind.answerA true) :=
  exec_rxb_eq.mpr (.inr (.inr (.inr (.inl ⟨rxOutcome_eq.mpr ⟨hc, rfl, hn⟩, rfl⟩))))

/-- The line so far, after a store, is one byte longer (R140 step 4). -/
theorem memReadF_storeByte (s : State) (b : Byte) :
    (s.storeByte b).memReadF (s.cursor + 1) = s.memReadF s.cursor ++ [b] := by
  unfold State.memReadF Memory.readBytes
  rw [List.range_succ, List.map_append]
  congr 1
  · refine List.map_congr_left fun k hk => ?_
    have hk : k < s.cursor := List.mem_range.mp hk
    exact read_storeByte_other s b (by omega)
  · rw [List.map_singleton, Nat.zero_add]
    exact congrArg (fun x => [x]) (fbufByte_storeByte_cursor s b)

/-- The content of a line: its bytes without `CR` (R144). -/
abbrev lineContent (cs : List Byte) : List Byte := cs.filter (fun b => b ≠ 0x0D)

/-- The framer stores the content of the bytes of a line, while it is below capacity at every `CR` and every content
byte, and leaves the queue (R144, R145). -/
theorem execAll_line_bytes {cs : List Byte} {s : State} (hs : s.Inv) (hlf : ∀ b ∈ cs, b ≠ 0x0A)
    (hlen : s.cursor + (lineContent cs).length ≤ s.cfg.c)
    (hcr : 0x0D ∈ cs → s.cursor + (lineContent cs).length < s.cfg.c) :
    ∃ t, execAll (cs.map Instr.rxb) s = .next t ∧ t.cursor = s.cursor + (lineContent cs).length ∧
      t.memReadF t.cursor = s.memReadF s.cursor ++ lineContent cs ∧ t.slot = s.slot ∧ t.head = s.head ∧
      t.tail = s.tail ∧ t.count = s.count := by
  induction cs generalizing s with
  | nil => exact ⟨s, rfl, rfl, (List.append_nil _).symm, rfl, rfl, rfl, rfl⟩
  | cons b cs ih =>
    obtain ⟨hb, hlfs⟩ := List.forall_mem_cons.mp hlf
    by_cases hbcr : b = 0x0D
    · subst hbcr
      have hcontent : lineContent (0x0D :: cs) = lineContent cs := rfl
      rw [hcontent] at hlen hcr ⊢
      have hc := hcr (List.mem_cons_self ..)
      have hexec := exec_cr (s := s) (by omega)
      rw [List.map_cons, execAll_cons hexec]
      exact ih (exec_keeps_inv hs hexec) hlfs hlen fun _ => hc
    · have hcontent : lineContent (b :: cs) = b :: lineContent cs := List.filter_cons_of_pos (by simpa using hbcr)
      rw [hcontent, List.length_cons] at hlen hcr ⊢
      have hexec := exec_content (s := s) (by omega) hbcr hb
      rw [List.map_cons, execAll_cons hexec]
      obtain ⟨t, ht, htcursor, htline, hqueue⟩ :=
        ih (s := (s.storeByte b).answerA true) (exec_keeps_inv hs hexec) hlfs (by simp; omega)
          fun h => by have := hcr (List.mem_cons_of_mem _ h); simp; omega
      refine ⟨t, ht, by rw [htcursor]; simp; omega, ?_, hqueue⟩
      rw [htline]
      show (s.storeByte b).memReadF (s.cursor + 1) ++ _ = _
      rw [memReadF_storeByte, List.append_assoc, List.singleton_append]

/-- Settles O38: the framer holds the line's content below capacity (`execAll_line_bytes`); the `LF` pushes it where
there is room and drops it where not. -/
theorem framingLaw : Obligations.FramingLaw := by
  intro s cs hs h0 hlf hlen
  replace hlen : (lineContent cs).length ≤ s.cfg.c - 1 := hlen
  have hpos : 1 ≤ s.cfg.c := by
    obtain ⟨⟨-, -, hc, -⟩, -⟩ := hs; exact hc
  obtain ⟨t, ht, hcursor, hline, hslot, hhead, -, hcount⟩ :=
    execAll_line_bytes hs hlf (by omega) (fun _ => by omega)
  rw [h0, Nat.zero_add] at hcursor
  have hline' : t.memReadF t.cursor = lineContent cs := by rw [hline, h0]; rfl
  have htinv := execAll_keeps_inv hs ht
  have hcfg := execAll_cfg ht
  have hlive : t.live = s.live := live_congr hcfg hslot hhead hcount
  have hc : t.cursor < t.cfg.c := by rw [hcursor, hcfg]; omega
  rw [List.map_append, execAll_append ht]
  by_cases hroom : t.count < t.cfg.n
  · refine ⟨_, execAll_cons (exec_lf_of_room htinv hc hroom), rfl, fun _ => ?_, fun hfull => ?_⟩
    · rw [live_answerA, live_rewind, live_append_line htinv hroom, hlive, hline', hcursor, hcfg]
    · rw [hcfg, hcount] at hroom; omega
  · refine ⟨_, execAll_cons (exec_lf_of_full hc (not_lt.mp hroom)), rfl, fun hlt => ?_, fun _ => ?_⟩
    · rw [hcfg, hcount] at hroom; exact absurd hlt hroom
    · rw [live_answerA, live_rewind, hlive]

/-- Settles O39: the first `C` bytes bring the cursor to `C` (`execAll_line_bytes`), and the last overflows. -/
theorem overlongLineIsLost : Obligations.OverlongLineIsLost := by
  intro s bs hs h0 hbs hlen
  have hne : bs ≠ [] := List.ne_nil_of_length_eq_add_one hlen
  obtain ⟨cs, b, rfl⟩ : ∃ cs b, bs = cs ++ [b] := ⟨_, _, (List.dropLast_append_getLast hne).symm⟩
  have hcs : ∀ c ∈ cs, c ≠ 0x0A ∧ c ≠ 0x0D := fun c hc => hbs c (List.mem_append_left _ hc)
  have hcontent : lineContent cs = cs := List.filter_eq_self.mpr fun c hc => by simpa using (hcs c hc).2
  have hlen' : cs.length = s.cfg.c := by simpa using hlen
  obtain ⟨t, ht, hcursor, -, hslot, hhead, htail, hcount⟩ :=
    execAll_line_bytes hs (fun c hc => (hcs c hc).1) (by rw [h0, hcontent]; omega) (fun h => absurd rfl (hcs _ h).2)
  have hover : t.cfg.c ≤ t.cursor := by rw [execAll_cfg ht, hcursor, h0, hcontent]; omega
  refine ⟨t.rewind.answerA true, ?_, rfl, hslot, hhead, htail, hcount⟩
  rw [List.map_append, execAll_append ht]
  exact execAll_cons (exec_rxb_at_capacity b hover)

end Sys2Proof.Machine
end

section
/-! The widths of R6 and R81: what the control fields hold fits the derived widths, and every answer fits its wires. -/

namespace Sys2Proof.Machine

/-! ### Derived widths -/

/-- `clog2 m` bits hold every value below `m` (R6). -/
theorem lt_two_pow_clog2 {k m : Nat} (h : k < m) : k < 2 ^ clog2 m := by
  unfold clog2
  split
  · omega
  · calc k ≤ m - 1 := by omega
      _ < 2 ^ (Nat.log2 (m - 1) + 1) := Nat.lt_log2_self

/-- `IW` bits hold every slot index (R6). -/
theorem lt_two_pow_iw {p : Params} {k : Nat} (h : k < p.n) : k < 2 ^ p.iw :=
  (lt_two_pow_clog2 h).trans_le (Nat.pow_le_pow_right (by decide) (le_max_right ..))

/-- Settles O56: the ranges of the invariant, each within its width. -/
theorem indicesFitTheirWidths : Obligations.IndicesFitTheirWidths := fun _ hs =>
  ⟨lt_two_pow_iw hs.head_lt, lt_two_pow_iw hs.tail_lt, lt_two_pow_clog2 (Nat.lt_succ_of_le hs.count_le),
    lt_two_pow_clog2 (Nat.lt_succ_of_le hs.cursor_le)⟩

/-! ### Answers -/

/-- The tick, the count and a bit fit `VW` bits (R81). -/
theorem lt_two_pow_vw {s : State} (hs : s.Inv) {v : Nat} (hv : v = s.tick ∨ v = s.count ∨ v ≤ 1) :
    v < 2 ^ s.cfg.vw := by
  have hcount : s.count < 2 ^ s.cfg.cw := lt_two_pow_clog2 (Nat.lt_succ_of_le hs.count_le)
  obtain ⟨⟨-, -, -, -, htw⟩, htick, -⟩ := hs
  have htw' : 2 ^ s.cfg.tw ≤ 2 ^ s.cfg.vw := Nat.pow_le_pow_right (by decide) (le_max_left ..)
  have hcw' : 2 ^ s.cfg.cw ≤ 2 ^ s.cfg.vw := Nat.pow_le_pow_right (by decide) (le_max_right ..)
  rcases hv with rfl | rfl | hv
  · omega
  · omega
  · have h1 : 1 < 2 ^ s.cfg.tw := Nat.one_lt_two_pow (by omega)
    omega

/-- Settles O55: what an answer sets of `val` fits (`lt_two_pow_vw`), what is free is taken within the width, and the
free bytes fill `data` up to `C`. -/
theorem answersFitTheirWires : Obligations.AnswersFitTheirWires := by
  intro i s t hs h
  obtain ⟨u, e, ha⟩ := exec_answers h
  obtain ⟨-, -, hcfg, -, hout, -⟩ := effect_frame e
  cases ha with
  | onA => exact fun a hmem => .inl (hout ▸ hmem)
  | @onS _ _ val data hval hdata =>
    intro a hmem
    rcases List.mem_cons.mp hmem with rfl | hmem
    · refine .inr ⟨?_, ?_⟩
      · cases val with
        | none => exact hcfg ▸ Nat.mod_lt _ (Nat.two_pow_pos _)
        | some v => exact lt_two_pow_vw hs (hval v rfl)
      · rw [List.length_append, length_freeLanes, hcfg]; omega
    · exact .inl (hout ▸ hmem)

end Sys2Proof.Machine
end

section
/-! What no operation shows (spec/10_state.md, R34): every operation takes two states of one view to two states of one
view, and `RSTITEM` tells two heads apart (log 16). -/

namespace Sys2Proof.Machine

/-! ### Views after each update -/

theorem State.SameView.answerA {s s' : State} (v : s.SameView s') (ok : Bool) :
    (s.answerA ok).SameView (s'.answerA ok) :=
  { v with aOut := congrArg (ok :: ·) v.aOut }

/-- The free parts of an answer depend on the parameters and on how many were drawn (R11). -/
theorem State.SameView.answerS {s s' : State} (v : s.SameView s') (ok : Bool) (val : Option Nat) (data : List Byte) :
    (s.answerS ok val data).SameView (s'.answerS ok val data) := by
  have hval : s'.freeVal = s.freeVal := by rw [State.freeVal, State.freeVal, v.cfg, v.draws]
  have hlanes : s'.freeLanes data.length = s.freeLanes data.length := by
    rw [State.freeLanes, State.freeLanes, v.cfg, v.draws]
  refine { v with sOut := ?_, draws := congrArg (· + 1) v.draws }
  rw [State.answerS_sOut, State.answerS_sOut, hval, hlanes, v.sOut]

theorem State.SameView.tickUp {s s' : State} (v : s.SameView s') : s.tickUp.SameView s'.tickUp :=
  { v with tick := by rw [State.tickUp_tick, State.tickUp_tick, v.tick, v.cfg] }

theorem State.SameView.rewind {s s' : State} (v : s.SameView s') : s.rewind.SameView s'.rewind :=
  { v with line := rfl, cursor := rfl }

theorem State.SameView.storeByte {s s' : State} (v : s.SameView s') (b : Byte) :
    (s.storeByte b).SameView (s'.storeByte b) := by
  refine { v with line := ?_, cursor := congrArg (· + 1) v.cursor }
  rw [State.storeByte_cursor, State.storeByte_cursor, memReadF_storeByte, memReadF_storeByte, v.line]

/-- A push adds the same record to the same content. -/
theorem State.SameView.append {s s' : State} (v : s.SameView s') (hs : s.Inv) (hs' : s'.Inv) {rec : List Byte}
    {len : Nat} (hn : s.count < s.cfg.n) (hl : (rec.take len).length ≤ s.cfg.c) :
    (s.append rec len).SameView (s'.append rec len) := by
  refine { v with live := ?_, count := congrArg (· + 1) v.count }
  rw [live_append hs hn hl, live_append hs' (by rwa [v.count, v.cfg]) (by rwa [v.cfg]), v.live, v.cfg]

theorem State.SameView.clearQueue {s s' : State} (v : s.SameView s') : s.clearQueue.SameView s'.clearQueue :=
  { v with live := rfl, count := rfl }

theorem State.SameView.oldest {s s' : State} (v : s.SameView s') (hs : s.Inv) (hs' : s'.Inv) (hn : s.count ≠ 0) :
    s'.record s'.head = s.record s.head ∧ s'.dropOldest.live = s.dropOldest.live := by
  have hlive := v.live
  rw [live_dropOldest hs hn, live_dropOldest hs' (v.count ▸ hn)] at hlive
  exact List.cons.inj hlive

theorem State.SameView.dropOldest {s s' : State} (v : s.SameView s') (hs : s.Inv) (hs' : s'.Inv) (hn : s.count ≠ 0) :
    s.dropOldest.SameView s'.dropOldest :=
  { v with live := (v.oldest hs hs' hn).2, count := congrArg (· - 1) v.count }

/-- With one head the live slots have one index each, so a clear blanks the same record (log 16). -/
theorem State.SameView.clearSlot {s s' : State} (v : s.SameView s') (hc : s.cfg.c ≤ 4095) (hhead : s.head = s'.head)
    (i : Nat) : (s.clearSlot i).SameView (s'.clearSlot i) := by
  have hindex : ∀ k, s'.liveIndex k = s.liveIndex k := fun k => by
    rw [State.liveIndex, State.liveIndex, v.cfg, hhead]
  have hrecord : ∀ k < s.count, s'.record (s.liveIndex k) = s.record (s.liveIndex k) := by
    have hlive := v.live
    simp only [State.live, v.count, hindex] at hlive
    exact fun k hk => List.map_inj_left.mp hlive k (List.mem_range.mpr hk)
  refine { v with live := ?_ }
  rw [live_clearSlot s hc, live_clearSlot s' (by rwa [v.cfg]), v.count, v.cfg]
  refine List.map_congr_left fun k hk => ?_
  rw [hindex, hrecord k (List.mem_range.mp hk)]

/-- The framer's choice depends on the view alone (R140). -/
theorem State.SameView.rxOutcome {s s' : State} (v : s.SameView s') (b : Byte) : s'.rxOutcome b = s.rxOutcome b := by
  rw [State.rxOutcome, State.rxOutcome, v.cfg, v.cursor, v.count]

/-! ### Views after each operation -/

theorem sameView_of_exec_rxb {b : Byte} {s s' t t' : State} (hs : s.Inv) (hs' : s'.Inv) (v : s.SameView s')
    (h : exec (.rxb b) s = .next t) (h' : exec (.rxb b) s' = .next t') : t.SameView t' := by
  have ho := v.rxOutcome b
  rw [exec_rxb_eq] at h h'
  simp only [ho] at h'
  rcases h with ⟨h, rfl⟩ | ⟨h, rfl⟩ | ⟨h, -, rfl⟩ | ⟨h, rfl⟩ | ⟨h, rfl⟩ <;>
    simp only [h, reduceCtorEq, false_and, true_and, false_or, or_false] at h'
  · exact h' ▸ v.rewind.answerA _
  · exact h' ▸ v.answerA _
  · obtain ⟨-, rfl⟩ := h'
    obtain ⟨hc, -, hn⟩ := rxOutcome_eq.mp h
    rw [v.line, v.cursor]
    exact (v.append hs hs' hn (by simpa using hc.le)).rewind.answerA _
  · exact h' ▸ v.rewind.answerA _
  · exact h' ▸ (v.storeByte b).answerA _

theorem sameView_of_exec_push {len : Nat} {s s' t t' : State} (hs : s.Inv) (hs' : s'.Inv) (v : s.SameView s')
    (h : exec (.push len) s = .next t) (h' : exec (.push len) s' = .next t') : t.SameView t' := by
  have hpayload : s'.payload = s.payload := by rw [State.payload, State.payload, v.cfg, v.aWdata]
  rw [exec_push_eq] at h h'
  rw [v.count, v.cfg, hpayload] at h'
  rcases h with ⟨hf, rfl⟩ | ⟨hn, hl, -, rfl⟩
  · obtain ⟨-, rfl⟩ := h'.resolve_right fun h => by omega
    exact v.answerA _
  · obtain ⟨-, -, -, rfl⟩ := h'.resolve_left fun h => by omega
    exact (v.append hs hs' (hs.count_le.lt_of_ne hn) (by simp)).answerA _

theorem sameView_of_exec_pop {len : Nat} {s s' t t' : State} (hs : s.Inv) (hs' : s'.Inv) (v : s.SameView s')
    (h : exec (.pop len) s = .next t) (h' : exec (.pop len) s' = .next t') : t.SameView t' := by
  rw [exec_pop_eq] at h h'
  rw [v.count, v.cfg] at h'
  rcases h with ⟨hf, rfl⟩ | ⟨hn, hl, -, rfl⟩
  · obtain ⟨-, rfl⟩ := h'.resolve_right fun h => by omega
    exact v.answerS ..
  · obtain ⟨-, -, -, rfl⟩ := h'.resolve_left fun h => by omega
    obtain ⟨hrecord, -⟩ := v.oldest hs hs' hn
    have hread : memReadQ s'.slot s'.head len = memReadQ s.slot s.head len := by
      rw [← take_memReadQ s'.slot _ hl, ← take_memReadQ s.slot _ hl]
      rw [State.record, State.record, v.cfg] at hrecord
      rw [hrecord]
    rw [hread]
    exact (v.dropOldest hs hs' hn).answerS ..

theorem sameView_of_exec_rstitem {k : Nat} {s s' t t' : State} (hc : s.cfg.c ≤ 4095) (v : s.SameView s')
    (hhead : s.head = s'.head) (h : exec (.rstitem k) s = .next t) (h' : exec (.rstitem k) s' = .next t') :
    t.SameView t' := by
  rw [exec_rstitem_eq] at h h'
  rw [v.cfg] at h'
  rcases h with ⟨hk, rfl⟩ | ⟨hk, rfl⟩
  · obtain ⟨-, rfl⟩ := h'.resolve_right fun h => by omega
    exact v.answerS ..
  · obtain ⟨-, rfl⟩ := h'.resolve_left fun h => by omega
    exact (v.clearSlot hc hhead k).answerS ..

/-- Settles O53: both states complete (`everyOperationCompletes`); each operation's guards, updates and answers are of
the view. -/
theorem hiddenStateReachesNoAnswer : Obligations.HiddenStateReachesNoAnswer := by
  intro i s s' t hs hs' v hi h
  obtain ⟨t', h', -⟩ := everyOperationCompletes i s' hs'
  refine ⟨t', h', ?_⟩
  cases i with
  | tick => rw [exec_tick_eq] at h h'; subst h h'; exact v.tickUp.answerA _
  | rxb b => exact sameView_of_exec_rxb hs hs' v h h'
  | push len => exact sameView_of_exec_push hs hs' v h h'
  | pop len => exact sameView_of_exec_pop hs hs' v h h'
  | count => rw [exec_count_eq] at h h'; subst h h'; rw [v.count]; exact v.answerS ..
  | full => rw [exec_full_eq] at h h'; subst h h'; rw [State.full, State.full, v.count, v.cfg]; exact v.answerS ..
  | empty => rw [exec_empty_eq] at h h'; subst h h'; rw [State.empty, State.empty, v.count]; exact v.answerS ..
  | rstall => rw [exec_rstall_eq] at h h'; subst h h'; exact v.clearQueue.answerS ..
  | rstitem k =>
    exact sameView_of_exec_rstitem hs.capacity_le v (hi.resolve_left fun h => h k rfl) h h'
  | rdtick => rw [exec_rdtick_eq] at h h'; subst h h'; rw [v.tick]; exact v.answerS ..

/-! ### `RSTITEM` and the head -/

/-- One record of one byte, in slot `i` of the test configuration. -/
def oneByteAt (i : Nat) : State :=
  { State.reset with slot := [(slotAddr i 0, 1)], head := i, tail := i + 1, count := 1 }

/-- Settles O54: the same one record in slot 0 and in slot 1; `RSTITEM 0` blanks the first alone. -/
theorem rstitemTellsHeadsApart : Obligations.RstitemTellsHeadsApart :=
  ⟨oneByteAt 0, oneByteAt 1, _, _, by decide, by decide,
    ⟨rfl, rfl, by decide, rfl, rfl, rfl, rfl, rfl, rfl, rfl, rfl⟩, rfl, rfl, by decide⟩

end Sys2Proof.Machine
end
